-- ==== Sys2Proof/Word.lean ====
section
/-!
DEFINITION. The machine's word types (00_scope.md R7, R8; 30_encoding.md R45). Every number of this block is unsigned
(00_scope.md section 5).
-/

namespace Sys2Proof

/-- A command word: 32 bits (30_encoding.md R45). -/
abbrev Word := BitVec 32

/-- A segment byte, a status word, a bus group or a response: 8 bits (R8, R15, R7, R53). -/
abbrev Byte := BitVec 8

/-- A frame: one lit bit for each of the 64 segments (00_scope.md R7). -/
abbrev Frame := BitVec 64

/-- The index of a segment buffer, as a command word carries it (R45, field B). -/
abbrev BufferIndex := BitVec 2

/-- The index of a segment in its buffer, 0..63 (R4; R45, field S). -/
abbrev SegmentIndex := BitVec 6

end Sys2Proof
end

