-- ==== Sys2Proof/Config.lean ====
section
/-!
DEFINITION. What is fixed for the machine (00_scope.md section 4) and the values the spec leaves free
(93_implementation_defined.md). The number of segment buffers is a named parameter of the model (R6, U8); it is carried by
State, so that every statement holds for each of its values, and only its default stands here.
-/

namespace Sys2Proof

/-- The issuers of commands: the tick agent and the host (00_scope.md R2, 60_exceptions.md R111). The part of the host that runs
beside a procedure of the host (45_host_procedures.md R94) is told apart from the part that runs the procedure. -/
inductive Agent where
  /-- The tick agent, which issues TICK and nothing else (45_host_procedures.md R85). -/
  | tickAgent
  /-- The host, which may issue any command (R85). -/
  | host
  /-- Another part of the host (R94, 41_segment_buffer.md R73): it may issue any command too. -/
  | otherHost
  deriving DecidableEq, Repr, Inhabited

namespace Config

/-- MAX_INTENSITY (R3). -/
def maxIntensity : Nat := 9

/-- NUM_SEGMENTS (R4). -/
def numSegments : Nat := 64

/-- SWEEP_LEN, the TICKs of one sweep: MAX_INTENSITY, not MAX_INTENSITY + 1 (R5, 90_conflicts.md C1). -/
def sweepLen : Nat := maxIntensity

/-- The default of NUM_BUFFERS (R6); the legal values are 1..4. -/
def defaultNumBuffers : Nat := 2

/-- GROUP_BITS (R7). -/
def groupBits : Nat := 8

/-- GROUPS_PER_FRAME (R7). -/
def groupsPerFrame : Nat := 8

/-- FREE VALUE (U4, R38, R104): which agent goes first, at the n-th time that more than one has a command ready. It has no
body, so a claim about the machine holds for every order of them. Assumption log 3. -/
opaque arbiter : Nat → Agent

/-- FREE VALUE (U1, R97): what the display shows while FRAMES is empty, which is after power-on before the first latch pulse and,
by the model's choice, in every launch state without a frame. Assumption log 6. -/
opaque powerOnDisplay : Frame

end Config

end Sys2Proof
end

