-- ==== Sys2Proof/Syntax.lean ====
section
/-!
DEFINITION. The commands (30_encoding.md R47), one constructor for each row of spec/opcode_table.json; the fault codes
(60_exceptions.md R101); and the assembler's lines, pseudo-commands among them (30_encoding.md R54).
-/

namespace Sys2Proof

/-- A command. Each operand has exactly the width the encoding gives it (R47's bit patterns), so a term of this type is a
legal word's content and nothing else. -/
inductive Instr where
  /-- 0x1, one PWM sub-cycle (40_refresh.md R60). -/
  | tick
  /-- 0x2, write intensity d to SEG[b][i] (41_segment_buffer.md R70). -/
  | segw (b : BufferIndex) (i : SegmentIndex) (d : Byte)
  /-- 0x3, read SEG[b][i] (41_segment_buffer.md R71). -/
  | segr (b : BufferIndex) (i : SegmentIndex)
  /-- 0x4, make buffer b the active buffer (41_segment_buffer.md R72). -/
  | sel (b : BufferIndex)
  /-- 0x5, read STATUS (42_status_control.md R75). -/
  | str
  /-- 0x6, masked write of STATUS: data d, mask m, 7 bits each (42_status_control.md R76). -/
  | stw (d : BitVec 7) (m : BitVec 7)
  /-- 0x7, read and clear STATUS.DONE (42_status_control.md R77). -/
  | dtake
  /-- 0x8, display disable (42_status_control.md R79). -/
  | ddis
  /-- 0x9, reset the block (42_status_control.md R80). -/
  | rst
  deriving DecidableEq, Repr

/-- The codes of illegal commands (60_exceptions.md R101). -/
inductive FaultCode where
  /-- OP is 0x0 or 0xA..0xF. -/
  | illegalOpcode
  /-- A reserved bit, or a bit of a field the opcode does not use, is 1. -/
  | reservedBits
  /-- B names a buffer that does not exist (SEGW, SEGR, SEL). -/
  | badBuffer
  /-- D is above 9 (SEGW). -/
  | badValue
  deriving DecidableEq, Repr

/-- The number R101's table gives a code. -/
def FaultCode.number : FaultCode → Nat
  | .illegalOpcode => 1
  | .reservedBits => 2
  | .badBuffer => 3
  | .badValue => 4

/-- A line of the assembler (R54): operands are the numbers as written, before the assembler checks that they fit. -/
inductive AsmLine where
  | tick
  | segw (b s d : Nat)
  | segr (b s : Nat)
  | sel (b : Nat)
  | str
  | stw (d m : Nat)
  | dtake
  | ddis
  | rst
  /-- `.word w`: a raw command word. -/
  | word (w : Nat)
  /-- Pseudo-command: does nothing. -/
  | nop
  /-- Pseudo-command: display enable. -/
  | den
  /-- Pseudo-command: halt refresh without blanking. -/
  | susp
  /-- Pseudo-command: one-cycle mode and enable. -/
  | onecyc
  /-- Pseudo-command: continuous refresh. -/
  | cont
  /-- Pseudo-command: clear DONE without reading it. -/
  | dclr
  /-- Pseudo-command: crossfade rate. -/
  | setrate (r : Nat)
  /-- Pseudo-command: crossfade step counter. -/
  | setstep (s : Nat)
  /-- Pseudo-command: "show this stream". -/
  | showBuffer (b : Nat)
  deriving DecidableEq, Repr

end Sys2Proof
end

