-- ==== Sys2Proof/WellFormed.lean ====
section
/-!
DEFINITION. The checks on a command beyond its widths. Every operand of Instr has the width of its encoded field, so every
term of Instr encodes to a legal word; what is left to check is legality by value (30_encoding.md R52), and, for an
assembler line, that its numbers fit their fields (R54).
-/

namespace Sys2Proof

/-- The buffer a command names exists (R52: "B must be less than NUM_BUFFERS for SEGW, SEGR and SEL"). -/
def Instr.bufferExists (numBuffers : Nat) : Instr → Bool
  | .tick => true
  | .segw b _ _ => b.toNat < numBuffers
  | .segr b _ => b.toNat < numBuffers
  | .sel b => b.toNat < numBuffers
  | .str => true
  | .stw _ _ => true
  | .dtake => true
  | .ddis => true
  | .rst => true

/-- The intensity a command stores is legal (R52: "D must be at most 9 for SEGW"). -/
def Instr.valueLegal : Instr → Bool
  | .tick => true
  | .segw _ _ d => d.toNat ≤ Config.maxIntensity
  | .segr _ _ => true
  | .sel _ => true
  | .str => true
  | .stw _ _ => true
  | .dtake => true
  | .ddis => true
  | .rst => true

/-- A command that does not fault when it executes (R52, R101) in a block of `numBuffers` buffers. -/
def Instr.wellFormed (numBuffers : Nat) (i : Instr) : Bool :=
  i.bufferExists numBuffers && i.valueLegal

/-- An assembler line whose operands fit their fields (R54: "An assembler refuses an operand that does not fit its field (b > 3,
s > 63, d > 255 for SEGW, d or m > 127 for STW)"; SETRATE and SETSTEP take 0..3, a raw word 32 bits). -/
def AsmLine.fits : AsmLine → Bool
  | .segw b s d => b ≤ 3 && s ≤ 63 && d ≤ 255
  | .segr b s => b ≤ 3 && s ≤ 63
  | .sel b => b ≤ 3
  | .stw d m => d ≤ 127 && m ≤ 127
  | .word w => w < 2 ^ 32
  | .setrate r => r ≤ 3
  | .setstep s => s ≤ 3
  | .showBuffer b => b ≤ 3
  | .tick => true
  | .str => true
  | .dtake => true
  | .ddis => true
  | .rst => true
  | .nop => true
  | .den => true
  | .susp => true
  | .onecyc => true
  | .cont => true
  | .dclr => true

end Sys2Proof
end

