-- ==== Sys2Proof/Decode.lean ====
section
/-!
DEFINITION. Decoding a command word (30_encoding.md R45 to R50), total, an illegal word refused by its fault code; and the
encoder, written from R47's bit patterns.
-/

namespace Sys2Proof

/-- OP, bits 31:28 (R46). -/
def fieldOP (w : Word) : BitVec 4 := w.extractLsb' 28 4

/-- B, bits 25:24 (R46). -/
def fieldB (w : Word) : BufferIndex := w.extractLsb' 24 2

/-- S, bits 21:16 (R46). -/
def fieldS (w : Word) : SegmentIndex := w.extractLsb' 16 6

/-- M, bits 15:8 (R46). -/
def fieldM (w : Word) : Byte := w.extractLsb' 8 8

/-- D, bits 7:0 (R46). -/
def fieldD (w : Word) : Byte := w.extractLsb' 0 8

/-- Bits 27:26 and 23:22 are 0 (R48). -/
def reservedZero (w : Word) : Bool := w.extractLsb' 26 2 == 0#2 && w.extractLsb' 22 2 == 0#2

/-- A word whose reserved bits are 0 and whose unused fields are 0 (`unusedZero`, R49) is the command i; another word is
illegal with code RESERVED_BITS (R48, R49). -/
def legalWhen (w : Word) (unusedZero : Bool) (i : Instr) : Except FaultCode Instr :=
  if reservedZero w && unusedZero then .ok i else .error .reservedBits

/-- The decoder (R47 to R50): an illegal opcode first, then the bits that must be 0 (60_exceptions.md R103). -/
def decode (w : Word) : Except FaultCode Instr :=
  match (fieldOP w).toNat with
  | 0x1 => legalWhen w (fieldB w == 0 && fieldS w == 0 && fieldM w == 0 && fieldD w == 0) .tick
  | 0x2 => legalWhen w (fieldM w == 0) (.segw (fieldB w) (fieldS w) (fieldD w))
  | 0x3 => legalWhen w (fieldM w == 0 && fieldD w == 0) (.segr (fieldB w) (fieldS w))
  | 0x4 => legalWhen w (fieldS w == 0 && fieldM w == 0 && fieldD w == 0) (.sel (fieldB w))
  | 0x5 => legalWhen w (fieldB w == 0 && fieldS w == 0 && fieldM w == 0 && fieldD w == 0) .str
  | 0x6 => legalWhen w (fieldB w == 0 && fieldS w == 0 && !(fieldM w).getLsbD 7 && !(fieldD w).getLsbD 7)
      (.stw ((fieldD w).truncate 7) ((fieldM w).truncate 7))
  | 0x7 => legalWhen w (fieldB w == 0 && fieldS w == 0 && fieldM w == 0 && fieldD w == 0) .dtake
  | 0x8 => legalWhen w (fieldB w == 0 && fieldS w == 0 && fieldM w == 0 && fieldD w == 0) .ddis
  | 0x9 => legalWhen w (fieldB w == 0 && fieldS w == 0 && fieldM w == 0 && fieldD w == 0) .rst
  | _ => .error .illegalOpcode

/-- A command word from its fields, in the one format of R45. -/
def packWord (op : BitVec 4) (b : BufferIndex) (s : SegmentIndex) (m d : Byte) : Word :=
  op ++ 0#2 ++ b ++ 0#2 ++ s ++ m ++ d

/-- The encoder: R47's bit patterns, a field an opcode does not use being 0. -/
def encode : Instr → Word
  | .tick => packWord 0x1 0 0 0 0
  | .segw b i d => packWord 0x2 b i 0 d
  | .segr b i => packWord 0x3 b i 0 0
  | .sel b => packWord 0x4 b 0 0 0
  | .str => packWord 0x5 0 0 0 0
  | .stw d m => packWord 0x6 0 0 (m.zeroExtend 8) (d.zeroExtend 8)
  | .dtake => packWord 0x7 0 0 0 0
  | .ddis => packWord 0x8 0 0 0 0
  | .rst => packWord 0x9 0 0 0 0

/-- The instruction the decoder reads from a word numbered as spec/opcode_table.json numbers it, bits from `nbits` up being 0:
one 32-bit word, bit 0 its least significant bit (R45). -/
def decodeTableWord (nbits w : Nat) : Option Instr :=
  match decode (BitVec.ofNat 32 (w % 2 ^ nbits)) with
  | .ok i => some i
  | .error _ => none

end Sys2Proof
end

