-- ==== Sys2Proof/Machine/State.lean ====
section
/-!
DEFINITION. The state of the machine, as plain data: everything 10_state.md gives the block, the model's records of what the
block shows (R22, R23, R97), and the agents that issue commands with what they still have to issue (00_scope.md R2,
20_memory.md R38).
-/

namespace Sys2Proof.Machine

/-- Why the machine has no step. No command of the opcode table raises one. -/
inductive Fault where
  /-- Raised by `stepWith` alone, when no agent has a command to issue: a step is the execution of one command (R1), so
  without one there is none. A host that waits for a response that never comes ends here (60_exceptions.md R102), once no other
  agent has a command. SAFE: the machine stops where the block would wait. -/
  | noCommand
  deriving DecidableEq, Repr

/-- Why a command is given no meaning. -/
inductive Refusal where
  /-- Raised by exec's arm of an instruction that has no meaning yet; no arm of this model does. SAFE. -/
  | notModelled (mnemonic : String)
  /-- Raised by TICK alone, with refresh enabled, in a state whose ACT names no buffer or whose CNT is above 8. The spec puts
  such a launch state outside itself (10_state.md R27, U7: `refuse`), and no step reaches one. SAFE. -/
  | outsideLaunchState
  deriving DecidableEq, Repr

/-- The segment buffers: (address, byte) pairs, addresses strictly rising, no byte equal to what an unlisted address reads as
(`Memory.wf`). The key of the address (b, i) of 20_memory.md R30 is 64 b + i (`segKey`). -/
abbrev Memory := List Host.Cell

/-- An entry of FAULTS (R101: "the pair (code, command word)"). -/
structure FaultRecord where
  /-- The code of the illegal command. -/
  code : FaultCode
  /-- The whole command word. -/
  word : Word
  deriving DecidableEq, Repr

/-- Where a host that runs R87's crossfade procedure stands: the command it issues next. -/
inductive Phase where
  /-- Steps 1 and 2: DTAKE until it responds 0x01. -/
  | poll
  /-- Step 3: STR. -/
  | readStatus
  /-- Step 3 on a throttled cycle: STEP <- `step` + 1, EN <- 1. -/
  | throttle (step : BitVec 2)
  /-- Step 4: SEGR a, i; `activity` as it stands before segment i. -/
  | readActive (i : SegmentIndex) (activity : Bool)
  /-- Step 4: SEGR t, i, the active value read being `av`. -/
  | readTarget (i : SegmentIndex) (activity : Bool) (av : Byte)
  /-- Step 4: SEGW a, i, v. -/
  | writeActive (i : SegmentIndex) (v : Byte)
  /-- Step 5: STEP <- 0, EN <- 1; then step 6 with this activity. -/
  | finishPass (activity : Bool)
  /-- The exit: CONT (R92). -/
  | leave
  /-- A read of the procedure faulted, so its response never comes (60_exceptions.md R102). -/
  | hung
  deriving DecidableEq, Repr

/-- A host in the middle of `crossfade(a, t)` (45_host_procedures.md R87). Host state, not block state (R26). -/
structure Crossfade where
  /-- The active buffer, faded in place. -/
  a : BufferIndex
  /-- The target buffer. -/
  t : BufferIndex
  /-- What the host does next. -/
  phase : Phase
  deriving DecidableEq, Repr

/-- What the host is in the middle of, one command at a time, going on by the responses. -/
inductive Procedure where
  /-- A crossfade (R87). -/
  | crossfade (c : Crossfade)
  /-- A wait for DONE and nothing else: DTAKE until it responds 0x01 (70_reset_and_hazards.md R125, R126). -/
  | awaitDone
  deriving DecidableEq, Repr

/-- What the host still has to do: a command word, a call of the crossfade procedure (R85, R96), or a wait for DONE (R126). -/
inductive HostOp where
  | word (w : Word)
  | crossfade (a t : BufferIndex)
  | awaitDone
  deriving DecidableEq, Repr

/-- The machine. -/
structure State where
  /-- NUM_BUFFERS, a parameter fixed for a run (R6, U8): no command writes it. -/
  numBuffers : Nat
  /-- SEG, the segment buffers (R10). -/
  seg : Memory
  /-- ACT, the active-buffer selector (R13). -/
  act : BitVec 2
  /-- CNT, the sub-cycle counter (R14). -/
  cnt : BitVec 4
  /-- STATUS (R15): RATE 1:0, STEP 3:2, DONE 4, ONE 5, EN 6, bit 7 reserved. -/
  status : Byte
  /-- LATCH, the frame last presented on the bus (R21). -/
  latch : Frame
  /-- FRAMES, every frame emitted, oldest first (R22). -/
  frames : List Frame
  /-- FAULTS, every illegal command, oldest first (R23). -/
  faults : List FaultRecord
  /-- The responses of SEGR, STR and DTAKE, oldest first (R53, R97). -/
  responses : List Byte
  /-- The model's own: the TICKs the tick agent has still to issue (R86). -/
  tickPending : Nat
  /-- The model's own: what the host has still to do, in issue order (R38). -/
  hostPending : List HostOp
  /-- The model's own: the procedure the host is running, if it is running one (R87, R126). -/
  hostRun : Option Procedure
  /-- The model's own: what another part of the host has still to issue, in issue order (45_host_procedures.md R94). -/
  otherPending : List Word
  /-- The model's own: how many free choices between the agents have been drawn (R104). -/
  draws : Nat
  deriving DecidableEq, Repr

/-- Power-on reset of a block with `n` segment buffers (70_reset_and_hazards.md R120), no agent having a command. -/
def State.powerOn (n : Nat) : State where
  numBuffers := n
  seg := []
  act := 0
  cnt := 0
  status := 0
  latch := 0
  frames := []
  faults := []
  responses := []
  tickPending := 0
  hostPending := []
  hostRun := none
  otherPending := []
  draws := 0

/-- The machine right after power-on reset (R120), with the default NUM_BUFFERS (R6). -/
def State.reset : State := State.powerOn Config.defaultNumBuffers

end Sys2Proof.Machine
end

