-- ==== Sys2Proof/Machine/Operands.lean ====
section
/-!
DEFINITION. The operand forms of the commands (30_encoding.md R46, R47): a segment address (B, S), a buffer index B, an
intensity D, and the 7-bit data and mask of STW. Nothing is sign-extended, scaled or shifted (R46).
-/

namespace Sys2Proof.Machine

/-- The key of the segment address (b, i) (20_memory.md R30). -/
def segKey (b : BufferIndex) (i : SegmentIndex) : Nat := 64 * b.toNat + i.toNat

/-- The buffer b is not in the segment space (R30, R37: NUM_BUFFERS ≤ b). -/
def bufferAbsent (s : State) (b : BufferIndex) : Bool := decide (s.numBuffers ≤ b.toNat)

/-- An intensity operand outside 0..9 (R3, R52). -/
def intensityIllegal (d : Byte) : Bool := decide (Config.maxIntensity < d.toNat)

/-- A 7-bit STATUS operand as the 8-bit word the masked write uses, bit 7 being 0 (R49, R76). -/
def statusOperand (v : BitVec 7) : Byte := v.zeroExtend 8

end Sys2Proof.Machine
end

