-- ==== Sys2Proof/Machine/Flags.lean ====
section
/-!
DEFINITION. The fields of STATUS (10_state.md R15 to R20) and every update of them the commands make
(40_refresh.md R65, 42_status_control.md R76, R77, R79).
-/

namespace Sys2Proof.Machine

/-- STATUS.RATE, bits 1:0 (R16). -/
def statusRATE (w : Byte) : BitVec 2 := w.extractLsb' 0 2

/-- STATUS.STEP, bits 3:2 (R17). -/
def statusSTEP (w : Byte) : BitVec 2 := w.extractLsb' 2 2

/-- STATUS.DONE, bit 4 (R18). -/
def statusDONE (w : Byte) : Bool := w.getLsbD 4

/-- STATUS.ONE, bit 5 (R19). -/
def statusONE (w : Byte) : Bool := w.getLsbD 5

/-- STATUS.EN, bit 6 (R20). -/
def statusEN (w : Byte) : Bool := w.getLsbD 6

/-- The masked write (R76): `(STATUS & ~M) | (D & M)`. -/
def maskedWrite (w m d : Byte) : Byte := (w &&& ~~~m) ||| (d &&& m)

/-- The mask of STATUS.DONE. -/
def maskDONE : Byte := 0x10

/-- The mask of STATUS.EN. -/
def maskEN : Byte := 0x40

/-- STATUS.DONE <- 1 (R65). -/
def setDONE (w : Byte) : Byte := maskedWrite w maskDONE maskDONE

/-- STATUS.DONE <- 0 (R77). -/
def clearDONE (w : Byte) : Byte := maskedWrite w maskDONE 0

/-- STATUS.EN <- 0 (R65, R79). -/
def clearEN (w : Byte) : Byte := maskedWrite w maskEN 0

/-- What the wrapping TICK makes of STATUS (R65): DONE <- 1, and EN <- 0 when ONE is 1. -/
def statusAfterWrap (w : Byte) : Byte := if statusONE w then clearEN (setDONE w) else setDONE w

/-- `zext_8` of a flag (R77): 0x00 or 0x01. -/
def flagByte (b : Bool) : Byte := if b then 1 else 0

end Sys2Proof.Machine
end

