-- ==== Sys2Proof/Machine/Crossfade.lean ====
section
/-!
DEFINITION. The host's procedures, its crossfade (45_host_procedures.md R87 to R92) and its wait for DONE
(70_reset_and_hazards.md R125, R126), as a host that issues one command at a time and goes on by the command's response.
-/

namespace Sys2Proof.Machine

/-- One segment of a stepping pass (R88): the value to write, if the segment is stepped. A target that is nonzero and below the
active value leaves the segment alone (90_conflicts.md C3). -/
def segmentStep (av tv : Byte) : Option Byte :=
  if tv ≠ 0 ∧ av.toNat < tv.toNat then some (av + 1)
  else if tv = 0 ∧ av ≠ 0 then some (av - 1)
  else none

/-- The procedure's first command, one atomic write: STEP <- 0, DONE <- 0, ONE <- 1, EN <- 1 (R87, 90_conflicts.md C7). -/
def crossfadeStart : Instr := .stw 0x60 0x7C

/-- The command the host issues next; a host that waits for a response that never comes issues none (60_exceptions.md R102). -/
def Crossfade.command (c : Crossfade) : Option Instr :=
  match c.phase with
  | .poll => some .dtake
  | .readStatus => some .str
  | .throttle step => some (.stw (((step + 1).zeroExtend 7 <<< 2) ||| 0x40) 0x4C)
  | .readActive i _ => some (.segr c.a i)
  | .readTarget i _ _ => some (.segr c.t i)
  | .writeActive i v => some (.segw c.a i v)
  | .finishPass _ => some (.stw 0x40 0x4C)
  | .leave => some (.stw 0x40 0x60)
  | .hung => none

/-- After segment i of the pass: the next segment, or the end of the pass (R87, `for i in 0..63`). -/
def phaseAfterSegment (i : SegmentIndex) (activity : Bool) : Phase :=
  if i = 63 then .finishPass activity else .readActive (i + 1) activity

/-- After DTAKE's response r: the wait goes on until it is 0x01 (R87 steps 1 and 2, R126). -/
def phaseAfterPoll (r : Byte) : Phase := if r = 1 then .readStatus else .poll

/-- After STR's response st: a completed cycle with STEP < RATE is throttled, another one steps (R89). -/
def phaseAfterStatus (st : Byte) : Phase :=
  if (statusSTEP st).toNat < (statusRATE st).toNat then .throttle (statusSTEP st) else .readActive 0 false

/-- After the active value av and the target value tv of segment i are read: a SEGW, or the next segment (R88). -/
def phaseAfterTarget (i : SegmentIndex) (activity : Bool) (av tv : Byte) : Phase :=
  match segmentStep av tv with
  | some v => .writeActive i v
  | none => phaseAfterSegment i activity

/-- How the host goes on when its command has executed with the response given, if any; `none` when the procedure returns. -/
def Crossfade.resume (c : Crossfade) (response : Option Byte) : Option Crossfade :=
  match c.phase, response with
  | .poll, some r => some { c with phase := phaseAfterPoll r }
  | .poll, none => some { c with phase := .hung }
  | .readStatus, some st => some { c with phase := phaseAfterStatus st }
  | .readStatus, none => some { c with phase := .hung }
  | .throttle _, _ => some { c with phase := .poll }
  | .readActive i activity, some av => some { c with phase := .readTarget i activity av }
  | .readActive _ _, none => some { c with phase := .hung }
  | .readTarget i activity av, some tv => some { c with phase := phaseAfterTarget i activity av tv }
  | .readTarget _ _ _, none => some { c with phase := .hung }
  | .writeActive i _, _ => some { c with phase := phaseAfterSegment i true }
  | .finishPass activity, _ => some { c with phase := if activity then .poll else .leave }
  | .leave, _ => none
  | .hung, _ => some c

/-- The command of the procedure that the host issues next; a wait for DONE is a loop of DTAKE (R126). -/
def Procedure.command : Procedure → Option Instr
  | .crossfade c => c.command
  | .awaitDone => some .dtake

/-- How the host goes on when the procedure's command has executed with the response given, if any; `none` when the procedure
returns. A wait returns on the response 0x01 and on nothing else (R126). -/
def Procedure.resume (p : Procedure) (response : Option Byte) : Option Procedure :=
  match p with
  | .crossfade c => (c.resume response).map .crossfade
  | .awaitDone => if response = some 1 then none else some .awaitDone

/-- The procedure is waiting for DONE: steps 1 and 2 of a crossfade, or a wait alone. -/
def Procedure.waits : Procedure → Bool
  | .crossfade c => c.phase == .poll
  | .awaitDone => true

end Sys2Proof.Machine
end

