-- ==== Sys2Proof/Machine/Bus.lean ====
section
/-!
DEFINITION. The shift-register bus (60_exceptions.md R110): how a frame is packed from its 64 lanes and cut into groups
(20_memory.md R32), the order of its bits on the wire (R33), and the bus calls of `emit Frame(F)` (00_scope.md section 5).
-/

namespace Sys2Proof.Machine

/-- The number whose bit i is `lit i`, for i below the bound. -/
def packLanes (lit : Nat → Bool) : Nat → Nat
  | 0 => 0
  | n + 1 => packLanes lit n + (if lit n then 2 ^ n else 0)

/-- The frame whose bit i is the lit bit of segment i (R32). -/
def frameOfLanes (lit : Nat → Bool) : Frame := BitVec.ofNat 64 (packLanes lit Config.numSegments)

/-- Group k of a frame: `G[k] = F[8k+7 : 8k]` (R32). -/
def frameGroup (F : Frame) (k : Nat) : Byte := F.extractLsb' (Config.groupBits * k) 8

/-- The groups in the order they are sent, G[0] to G[7] (R33). -/
def frameGroups (F : Frame) : List Byte := (List.range Config.groupsPerFrame).map (frameGroup F)

/-- The bits of a group in the order they are sent, bit 7 first and bit 0 last (R33). -/
def groupBitsSent (g : Byte) : List Bool := (List.range Config.groupBits).map fun j => g.getLsbD (7 - j)

/-- The serial bit sequence of a frame, first bit first (R33). -/
def frameSerial (F : Frame) : List Bool := (frameGroups F).flatMap groupBitsSent

/-- The two primitives of the bus (R31, R110). -/
inductive BusCall where
  /-- `send_group(g)`. -/
  | sendGroup (g : Byte)
  /-- `pulse_latch()`. -/
  | pulseLatch
  deriving DecidableEq, Repr

/-- The bus calls of `emit Frame(F)`: the 8 groups in R33's order, then one latch pulse (R64). -/
def frameCalls (F : Frame) : List BusCall := (frameGroups F).map .sendGroup ++ [.pulseLatch]

/-- Every call the block has made on the bus, oldest first: those of the frames it has emitted, and no other (R110). -/
def State.busCalls (s : State) : List BusCall := s.frames.flatMap frameCalls

/-- What the display shows: LATCH (R21), once a latch pulse has presented a frame; before that, a free value (U1). DESIGN CHOICE
(log 6): FRAMES empty is taken for "before the first latch pulse" also in a launch state (10_state.md R27) whose LATCH is not 0,
where R21, R27 and 70_reset_and_hazards.md R129 do not tie LATCH to FRAMES and U1 speaks of power-on only. -/
def State.display (s : State) : Frame := if s.frames = [] then Config.powerOnDisplay else s.latch

end Sys2Proof.Machine
end

