-- ==== Sys2Proof/Machine/Ops.lean ====
section
/-!
DEFINITION. The named operations the meanings are written over: one segment byte read or written (20_memory.md R30, R35), a
frame computed and emitted (40_refresh.md R62, R64), the counter's advance (R65), a response (30_encoding.md R53), the
record of an illegal command (60_exceptions.md R101, R102), and the block's reset (70_reset_and_hazards.md R121).
-/

namespace Sys2Proof.Machine

/-- What an address that is not listed reads as: the reset value of every segment byte (10_state.md R10). -/
def Memory.blank : Byte := 0

/-- The byte at a key. -/
def Memory.read : Memory → Nat → Byte
  | [], _ => Memory.blank
  | (k, v) :: m, a => if a = k then v else Memory.read m a

/-- The memory without what it lists at a key. -/
def Memory.erase (m : Memory) (a : Nat) : Memory := m.filter fun c => c.1 != a

/-- The memory with one more cell, put before the first greater address. -/
def Memory.insert (c : Host.Cell) : Memory → Memory
  | [] => [c]
  | d :: m => if c.1 < d.1 then c :: d :: m else d :: Memory.insert c m

/-- The memory with the byte at a key written, in canonical form. -/
def Memory.write (m : Memory) (a : Nat) (v : Byte) : Memory :=
  if v = Memory.blank then Memory.erase m a else Memory.insert (a, v) (Memory.erase m a)

/-- The canonical form: addresses strictly rising, and no entry equal to what an unlisted address reads as. -/
def Memory.wf (m : Memory) : Bool :=
  decide (m.Pairwise fun p q => p.1 < q.1) && m.all fun c => c.2 != Memory.blank

/-- `MemRead((b, i), 1)`: the byte SEG[b][i] (00_scope.md section 5). -/
def readSegment (s : State) (b : BufferIndex) (i : SegmentIndex) : Byte := Memory.read s.seg (segKey b i)

/-- `MemWrite((b, i), 1, v)`: SEG[b][i] <- v. -/
def writeSegment (s : State) (b : BufferIndex) (i : SegmentIndex) (v : Byte) : State :=
  { s with seg := Memory.write s.seg (segKey b i) v }

/-- The compare of one lane, unsigned on the 8-bit stored value (R62, R63): `bool(SEG[ACT][i] > c)`. -/
def laneLit (v : Byte) (c : BitVec 4) : Bool := decide (c.toNat < v.toNat)

/-- The frame TICK computes: the lanes of the active buffer against CNT (R62). -/
def activeFrame (s : State) : Frame :=
  frameOfLanes fun n => laneLit (readSegment s s.act (BitVec.ofNat 6 n)) s.cnt

/-- `emit Frame(F)`: the bus calls are `frameCalls F`; LATCH <- F, and F is appended to FRAMES (00_scope.md section 5,
R21, R22). -/
def emitFrame (F : Frame) (s : State) : State := { s with latch := F, frames := s.frames ++ [F] }

/-- The counter's advance (R65): CNT to c + 1, or, when that is SWEEP_LEN, to 0 with STATUS as a wrap leaves it. -/
def advanceCounter (s : State) : State :=
  if s.cnt.toNat + 1 = Config.sweepLen then { s with cnt := 0, status := statusAfterWrap s.status }
  else { s with cnt := s.cnt + 1 }

/-- `respond(v)` (R53). -/
def respond (v : Byte) (s : State) : State := { s with responses := s.responses ++ [v] }

/-- `raise Fault(code)` for the command word w (R101, R102): the block ignores the command; FAULTS gains (code, w) and nothing
else changes. The block has no trap entry and so no trap return (R106, R107). -/
def raiseFault (code : FaultCode) (w : Word) (s : State) : State := { s with faults := s.faults ++ [⟨code, w⟩] }

/-- `reset_block()` (R121): every segment byte, ACT, CNT and STATUS to 0, then one blank frame. -/
def resetBlock (s : State) : State := emitFrame 0 { s with seg := [], act := 0, cnt := 0, status := 0 }

end Sys2Proof.Machine
end

