-- ==== Sys2Proof/Machine/Refresh.lean ====
section
/-!
DEFINITION. TICK, the PWM duty-cycle generator (40_refresh.md R60 to R66).
-/

namespace Sys2Proof.Machine

/-- ACT and CNT are as 10_state.md R27 has them. In another state the compare reads a buffer that does not exist or a counter
value the spec does not have, and the spec gives no meaning (U7). -/
def refreshDefined (s : State) : Bool := !bufferAbsent s s.act && decide (s.cnt.toNat < Config.sweepLen)

/-- TICK (R60): nothing at all while STATUS.EN is 0 (R61); otherwise the frame of the old CNT is emitted (R62, R64) and the
counter advances (R65). -/
def execTick (s : State) : Host.Outcome State Fault Refusal :=
  if statusEN s.status then
    if refreshDefined s then .next (advanceCounter (emitFrame (activeFrame s) s))
    else .refused .outsideLaunchState
  else .next s

end Sys2Proof.Machine
end

