-- ==== Sys2Proof/Machine/SegmentBuffer.lean ====
section
/-!
DEFINITION. The segment buffer commands SEGW, SEGR and SEL (41_segment_buffer.md R70 to R72). An illegal operand is a fault of
the block's, recorded and otherwise ignored (60_exceptions.md R101, R102): the machine goes on.
-/

namespace Sys2Proof.Machine

/-- SEGW (R70). BAD_BUFFER comes before BAD_VALUE (60_exceptions.md R103). -/
def execSegw (b : BufferIndex) (i : SegmentIndex) (d : Byte) (s : State) : Host.Outcome State Fault Refusal :=
  if bufferAbsent s b then .next (raiseFault .badBuffer (encode (.segw b i d)) s)
  else if intensityIllegal d then .next (raiseFault .badValue (encode (.segw b i d)) s)
  else .next (writeSegment s b i d)

/-- SEGR (R71). -/
def execSegr (b : BufferIndex) (i : SegmentIndex) (s : State) : Host.Outcome State Fault Refusal :=
  if bufferAbsent s b then .next (raiseFault .badBuffer (encode (.segr b i)) s)
  else .next (respond (readSegment s b i) s)

/-- SEL (R72): ACT alone; CNT is not reset and no frame is emitted. -/
def execSel (b : BufferIndex) (s : State) : Host.Outcome State Fault Refusal :=
  if bufferAbsent s b then .next (raiseFault .badBuffer (encode (.sel b)) s)
  else .next { s with act := b }

end Sys2Proof.Machine
end

