-- ==== Sys2Proof/Machine/StatusControl.lean ====
section
/-!
DEFINITION. The status and control commands STR, STW, DTAKE, DDIS and RST (42_status_control.md R75 to R80). None of them
faults once its word is legal (60_exceptions.md R101).
-/

namespace Sys2Proof.Machine

/-- STR (R75). -/
def execStr (s : State) : Host.Outcome State Fault Refusal :=
  .next (respond s.status s)

/-- STW (R76): the fields under the mask take the data, at one point of the total order. -/
def execStw (d m : BitVec 7) (s : State) : Host.Outcome State Fault Refusal :=
  .next { s with status := maskedWrite s.status (statusOperand m) (statusOperand d) }

/-- DTAKE (R77): the response is DONE as it was before the clear. -/
def execDtake (s : State) : Host.Outcome State Fault Refusal :=
  .next (respond (flagByte (statusDONE s.status)) { s with status := clearDONE s.status })

/-- DDIS (R79): EN is cleared and a blank frame emitted, whether or not EN was 1. -/
def execDdis (s : State) : Host.Outcome State Fault Refusal :=
  .next (emitFrame 0 { s with status := clearEN s.status })

/-- RST (R80). -/
def execRst (s : State) : Host.Outcome State Fault Refusal :=
  .next (resetBlock s)

end Sys2Proof.Machine
end

