-- ==== Sys2Proof/Machine/Dispatch.lean ====
section
/-!
DEFINITION. Each command's meaning, one arm a constructor of Instr (30_encoding.md R47).
-/

namespace Sys2Proof.Machine

def exec (i : Instr) (s : State) : Host.Outcome State Fault Refusal :=
  match i with
  | .tick => Sys2Proof.Machine.execTick s
  | .segw b j d => Sys2Proof.Machine.execSegw b j d s
  | .segr b j => Sys2Proof.Machine.execSegr b j s
  | .sel b => Sys2Proof.Machine.execSel b s
  | .str => Sys2Proof.Machine.execStr s
  | .stw d m => Sys2Proof.Machine.execStw d m s
  | .dtake => Sys2Proof.Machine.execDtake s
  | .ddis => Sys2Proof.Machine.execDdis s
  | .rst => Sys2Proof.Machine.execRst s

end Sys2Proof.Machine
end

