-- ==== Sys2Proof/Machine/Issue.lean ====
section
/-!
DEFINITION. What the block does with one command word it is given (00_scope.md R1), and with a list of them in total order
(20_memory.md R38, 45_host_procedures.md R97).
-/

namespace Sys2Proof.Machine

/-- One command word: a legal one has its meaning; an illegal one is recorded and ignored (60_exceptions.md R101, R102). -/
def execWord (w : Word) (s : State) : Host.Outcome State Fault Refusal :=
  match decode w with
  | .ok i => exec i s
  | .error code => .next (raiseFault code w s)

/-- Command words executed one after the other, each completely, in the order of the list (R38, R123). -/
def execWords : List Word → State → Host.Outcome State Fault Refusal
  | [], s => .next s
  | w :: ws, s =>
    match execWord w s with
    | .next t => execWords ws t
    | .fault r => .fault r
    | .refused r => .refused r

/-- The response a command gave, from the states before and after it: none for a command that does not respond and for an
illegal one (R53). -/
def newResponse (s t : State) : Option Byte := t.responses[s.responses.length]?

end Sys2Proof.Machine
end

