-- ==== Sys2Proof/Machine/Agents.lean ====
section
/-!
DEFINITION. The agents and the total order of their commands (00_scope.md R2, 20_memory.md R38, 60_exceptions.md R104): one
command at a time, each agent's own in issue order, and, where more than one has a command ready, any of them first.
-/

namespace Sys2Proof.Machine

/-- The tick agent has a TICK to issue, whatever STATUS holds (45_host_procedures.md R85, R86). -/
def tickReady (s : State) : Bool := decide (0 < s.tickPending)

/-- The host has a command to issue: the next of the procedure it is running, or else of what it has still to do. -/
def hostReady (s : State) : Bool :=
  match s.hostRun with
  | some p => p.command.isSome
  | none => !s.hostPending.isEmpty

/-- Another part of the host has a command to issue; a running procedure does not hold it up (45_host_procedures.md R94). -/
def otherReady (s : State) : Bool := !s.otherPending.isEmpty

/-- The agent has a command to issue. -/
def agentReady (s : State) : Agent → Bool
  | .tickAgent => tickReady s
  | .host => hostReady s
  | .otherHost => otherReady s

/-- The agents that have a command to issue. -/
def readyAgents (s : State) : List Agent := [Agent.tickAgent, .host, .otherHost].filter (agentReady s)

/-- Which agent issues the next command, and the state with the draw counted if the choice was free (R104, U4): the one `pick`
names at the counter, where several are ready; one of them where it names one that is not. -/
def arbitrate (pick : Nat → Agent) (s : State) : Option (Agent × State) :=
  match readyAgents s with
  | [] => none
  | [a] => some (a, s)
  | a :: _ :: _ => some (if agentReady s (pick s.draws) then pick s.draws else a, { s with draws := s.draws + 1 })

/-- The tick agent issues TICK. -/
def issueTick (s : State) : Host.Outcome State Fault Refusal :=
  execWord (encode .tick) { s with tickPending := s.tickPending - 1 }

/-- The host that runs the procedure p goes on after its command has taken s to the outcome given. -/
def resumeHost (p : Procedure) (s : State) :
    Host.Outcome State Fault Refusal → Host.Outcome State Fault Refusal
  | .next t => .next { t with hostRun := p.resume (newResponse s t) }
  | .fault r => .fault r
  | .refused r => .refused r

/-- The host issues its next command: that of the procedure it is running, or the next of what it has still to do. -/
def issueHost (s : State) : Host.Outcome State Fault Refusal :=
  match s.hostRun with
  | some p =>
    match p.command with
    | some i => resumeHost p s (execWord (encode i) s)
    | none => .fault .noCommand
  | none =>
    match s.hostPending with
    | [] => .fault .noCommand
    | .word w :: rest => execWord w { s with hostPending := rest }
    | .crossfade a t :: rest =>
      execWord (encode crossfadeStart) { s with hostPending := rest, hostRun := some (.crossfade ⟨a, t, .poll⟩) }
    | .awaitDone :: rest => resumeHost .awaitDone s (execWord (encode .dtake) { s with hostPending := rest })

/-- Another part of the host issues its next command. Its response, if any, is no response to the procedure the host runs. -/
def issueOther (s : State) : Host.Outcome State Fault Refusal :=
  match s.otherPending with
  | [] => .fault .noCommand
  | w :: rest => execWord w { s with otherPending := rest }

/-- The agent issues its next command. -/
def issueAs (a : Agent) (s : State) : Host.Outcome State Fault Refusal :=
  match a with
  | .tickAgent => issueTick s
  | .host => issueHost s
  | .otherHost => issueOther s

/-- One step with the free choices given by `pick`: the execution of one command (00_scope.md R1). -/
def stepWith (pick : Nat → Agent) (s : State) : Host.Outcome State Fault Refusal :=
  match arbitrate pick s with
  | none => .fault .noCommand
  | some (a, t) => issueAs a t

/-- `k` steps with the free choices given by `pick`, stopping at the first that has no next state. -/
def runWith (pick : Nat → Agent) : Nat → State → Host.Outcome State Fault Refusal
  | 0, s => .next s
  | k + 1, s =>
    match stepWith pick s with
    | .next t => runWith pick k t
    | .fault r => .fault r
    | .refused r => .refused r

end Sys2Proof.Machine
end

