-- ==== Sys2Proof/Machine/Step.lean ====
section
/-!
DEFINITION. One step of the machine, and a command word placed as the one the next step executes.
-/

namespace Sys2Proof.Machine

/-- One step (00_scope.md R1): one command, of the agent that is ready, the free choice between ready agents being
`Config.arbiter`'s (U4). -/
def step (s : State) : Host.Outcome State Fault Refusal := stepWith Config.arbiter s

/-- The block fetches no instructions (10_state.md R11): a command arrives from an agent. The word is placed as the host's next
command, the host is not in a procedure, and no other agent has anything to issue, so that the next step executes it. -/
def State.withFetchWord (s : State) (nbits w : Nat) : State :=
  { s with
    tickPending := 0
    hostPending := .word (BitVec.ofNat 32 (w % 2 ^ nbits)) :: s.hostPending
    hostRun := none
    otherPending := [] }

end Sys2Proof.Machine
end

