-- ==== Sys2Proof/Machine/Assembler.lean ====
section
/-!
DEFINITION. The assembler (30_encoding.md R54): the word of a line, each pseudo-command by the expansion of its table; and
reading a line of text.
-/

namespace Sys2Proof.Machine

/-- The command a line stands for; none for a raw word. -/
def asmInstr : AsmLine → Option Instr
  | .tick => some .tick
  | .segw b s d => some (.segw (BitVec.ofNat 2 b) (BitVec.ofNat 6 s) (BitVec.ofNat 8 d))
  | .segr b s => some (.segr (BitVec.ofNat 2 b) (BitVec.ofNat 6 s))
  | .sel b => some (.sel (BitVec.ofNat 2 b))
  | .str => some .str
  | .stw d m => some (.stw (BitVec.ofNat 7 d) (BitVec.ofNat 7 m))
  | .dtake => some .dtake
  | .ddis => some .ddis
  | .rst => some .rst
  | .word _ => none
  | .nop => some (.stw 0x00 0x00)
  | .den => some (.stw 0x40 0x40)
  | .susp => some (.stw 0x00 0x40)
  | .onecyc => some (.stw 0x60 0x60)
  | .cont => some (.stw 0x40 0x60)
  | .dclr => some (.stw 0x00 0x10)
  | .setrate r => some (.stw (BitVec.ofNat 7 r) 0x03)
  | .setstep s => some (.stw (BitVec.ofNat 7 s <<< 2) 0x0C)
  | .showBuffer b => some (.sel (BitVec.ofNat 2 b))

/-- The word of a line; none where an operand does not fit its field. -/
def assemble (l : AsmLine) : Option Word :=
  if l.fits then
    match l, asmInstr l with
    | .word w, _ => some (BitVec.ofNat 32 w)
    | _, some i => some (encode i)
    | _, none => none
  else none

/-- The value of a digit in a base, if it is one. -/
def digitValue (base : Nat) (c : Char) : Option Nat :=
  let v :=
    if '0'.toNat ≤ c.toNat ∧ c.toNat ≤ '9'.toNat then c.toNat - '0'.toNat
    else if 'a'.toNat ≤ c.toNat ∧ c.toNat ≤ 'f'.toNat then c.toNat - 'a'.toNat + 10
    else if 'A'.toNat ≤ c.toNat ∧ c.toNat ≤ 'F'.toNat then c.toNat - 'A'.toNat + 10
    else base
  if v < base then some v else none

/-- The number the digits continue `acc` to; none at a character that is no digit. -/
def readDigits (base : Nat) : Nat → List Char → Option Nat
  | acc, [] => some acc
  | acc, c :: cs =>
    match digitValue base c with
    | some v => readDigits base (base * acc + v) cs
    | none => none

/-- A number, decimal or `0x` hexadecimal. -/
def readNumber : List Char → Option Nat
  | [] => none
  | ['0', 'x'] => none
  | '0' :: 'x' :: cs => readDigits 16 0 cs
  | cs => readDigits 10 0 cs

/-- A space between the words of a line. -/
def isBlank (c : Char) : Bool := c == ' ' || c == '\t'

/-- The text with blanks taken from both ends. -/
def trimBlanks (cs : List Char) : List Char := ((cs.dropWhile isBlank).reverse.dropWhile isBlank).reverse

/-- The operand texts between commas; no operand for an empty text. -/
def splitOperands (cs : List Char) : List (List Char) :=
  if trimBlanks cs = [] then [] else (cs.splitOn ',').map trimBlanks

/-- The line of a mnemonic and its operands. -/
def lineOf : String → List Nat → Option AsmLine
  | "TICK", [] => some .tick
  | "SEGW", [b, s, d] => some (.segw b s d)
  | "SEGR", [b, s] => some (.segr b s)
  | "SEL", [b] => some (.sel b)
  | "STR", [] => some .str
  | "STW", [d, m] => some (.stw d m)
  | "DTAKE", [] => some .dtake
  | "DDIS", [] => some .ddis
  | "RST", [] => some .rst
  | ".word", [w] => some (.word w)
  | "NOP", [] => some .nop
  | "DEN", [] => some .den
  | "SUSP", [] => some .susp
  | "ONECYC", [] => some .onecyc
  | "CONT", [] => some .cont
  | "DCLR", [] => some .dclr
  | "SETRATE", [r] => some (.setrate r)
  | "SETSTEP", [s] => some (.setstep s)
  | "SHOW", [b] => some (.showBuffer b)
  | _, _ => none

/-- A line of text: `;` starts a comment; the mnemonic, then its operands separated by commas. None for a text that is no
command, a line with a comment alone among them. -/
def parseLine (text : List Char) : Option AsmLine :=
  let code := trimBlanks (text.takeWhile (· != ';'))
  let name := code.takeWhile fun c => !isBlank c
  match (splitOperands (code.dropWhile fun c => !isBlank c)).mapM readNumber with
  | some operands => lineOf (String.ofList name) operands
  | none => none

end Sys2Proof.Machine
end

