-- ==== Sys2Proof/Machine/Geometry.lean ====
section
/-!
DEFINITION. The Digit Geometry Table, a constant of the block (10_state.md R24), and which glow element a segment drives
(R25).
-/

namespace Sys2Proof.Machine

/-- A logical position of the table (R24). -/
inductive Position where
  /-- Digit tube p; tube p is the one at cursor position p. -/
  | tube (p : Fin 6)
  | leftLamp
  | rightLamp
  | auxA
  | auxB
  deriving DecidableEq, Repr

/-- The number of a logical position, 0..9 (R24's first column). -/
def Position.number : Position → Nat
  | .tube p => p.val
  | .leftLamp => 6
  | .rightLamp => 7
  | .auxA => 8
  | .auxB => 9

/-- The offset of a position in a segment buffer (R24). -/
def Position.offset : Position → Nat
  | .tube p => 10 * p.val
  | .leftLamp => 60
  | .rightLamp => 61
  | .auxA => 62
  | .auxB => 63

/-- How many segments a position has (R24). -/
def Position.segmentCount : Position → Nat
  | .tube _ => 10
  | .leftLamp => 1
  | .rightLamp => 1
  | .auxA => 1
  | .auxB => 1

/-- One glow element (R25). -/
inductive GlowElement where
  /-- The emitter of digit d in digit tube p. -/
  | digit (p : Fin 6) (d : Fin 10)
  | leftLamp
  | rightLamp
  | auxA
  | auxB
  deriving DecidableEq, Repr

/-- The glow element that segment i, and bit i of a frame, drives (R25): digit `i mod 10` of tube `i div 10` below 60. -/
def elementOf (i : SegmentIndex) : GlowElement :=
  if h : i.toNat < 60 then
    .digit ⟨i.toNat / 10, by omega⟩ ⟨i.toNat % 10, by omega⟩
  else if i.toNat = 60 then .leftLamp
  else if i.toNat = 61 then .rightLamp
  else if i.toNat = 62 then .auxA
  else .auxB

/-- The segment of a glow element (R24, R95). -/
def segmentOf : GlowElement → SegmentIndex
  | .digit p d => BitVec.ofNat 6 (10 * p.val + d.val)
  | .leftLamp => 60
  | .rightLamp => 61
  | .auxA => 62
  | .auxB => 63

end Sys2Proof.Machine
end

