-- ==== Sys2Proof/Machine/HostProcedures.lean ====
section
/-!
DEFINITION. The source's host operations as commands (45_host_procedures.md R95, R96; 70_reset_and_hazards.md R122).
-/

namespace Sys2Proof.Machine

/-- Write an intensity to the segment of a glow element: a digit, a lamp or an auxiliary output (R95). -/
def writeElement (b : BufferIndex) (e : GlowElement) (v : Byte) : List Word := [encode (.segw b (segmentOf e) v)]

/-- Blank the position of tube p: 0 to each of its ten segments (R95). DESIGN CHOICE (log 13): from digit 0 up to digit 9, taking
the `k = 0..9` of 95_test_vectors.md E4 for an order. -/
def blankTube (b : BufferIndex) (p : Fin 6) : List Word :=
  (List.finRange 10).flatMap fun d => writeElement b (.digit p d) 0

/-- Show digit d alone in tube p, at intensity v (R95; 95_test_vectors.md E4): the tube blanked, then the one segment written. -/
def writeDigit (b : BufferIndex) (p : Fin 6) (d : Fin 10) (v : Byte) : List Word :=
  blankTube b p ++ writeElement b (.digit p d) v

/-- A digit at a cursor position: position 6 is past the rightmost digit, and a write there is skipped (R95). DESIGN CHOICE
(log 14): the tube is blanked first, as in 95_test_vectors.md E4 with overlay off; E7 says that this is not given. -/
def writeDigitAtCursor (b : BufferIndex) (cursor : Nat) (d : Fin 10) (v : Byte) : List Word :=
  if h : cursor < 6 then writeDigit b ⟨cursor, h⟩ d v else []

/-- The source's host operations (R96). -/
inductive HostOperation where
  /-- Stream creation or reset: the all-off buffer. -/
  | streamReset (b : BufferIndex)
  /-- "Show this stream". -/
  | selectStream (b : BufferIndex)
  /-- Crossfade invocation. -/
  | crossfade (a t : BufferIndex)
  /-- Crossfade-rate configuration. -/
  | setRate (r : BitVec 2)
  | displayEnable
  | displayDisable
  deriving DecidableEq, Repr

/-- What the host issues for an operation (R96's table). DESIGN CHOICE (log 13): the 64 SEGWs of a stream reset go from segment 0
up to segment 63; R96 gives no order, and TICKs between them show it (41_segment_buffer.md R73). -/
def HostOperation.ops : HostOperation → List HostOp
  | .streamReset b => (List.range Config.numSegments).map fun i => .word (encode (.segw b (BitVec.ofNat 6 i) 0))
  | .selectStream b => [.word (encode (.sel b))]
  | .crossfade a t => [.crossfade a t]
  | .setRate r => [.word (encode (.stw (r.zeroExtend 7) 0x03))]
  | .displayEnable => [.word (encode (.stw 0x40 0x40))]
  | .displayDisable => [.word (encode .ddis)]

/-- An intensity to write: buffer, segment, value. -/
structure SegmentWrite where
  b : BufferIndex
  i : SegmentIndex
  v : Byte
  deriving DecidableEq, Repr

/-- The boot sequence (R122 steps 2 to 5): the intensities, the buffer to show, the crossfade rate, and refresh enabled last.
DESIGN CHOICE (log 13): steps 2 to 4 in the order R122 numbers them, of which it allows any; SEL and SETRATE are always issued. -/
def bootSequence (writes : List SegmentWrite) (b : BufferIndex) (r : BitVec 2) : List HostOp :=
  writes.map (fun x => .word (encode (.segw x.b x.i x.v))) ++ HostOperation.ops (.selectStream b) ++
    HostOperation.ops (.setRate r) ++ HostOperation.ops .displayEnable

end Sys2Proof.Machine
end

