-- ==== Sys2Proof/Safety.lean ====
section
/-!
DEFINITION. What the statements speak of: the legal states (10_state.md R27), safe runs and what is observed of them
(45_host_procedures.md R97), which words are illegal (60_exceptions.md R101), the interleavings of the agents' commands
(20_memory.md R38), and where the crossfade procedure has the machine (45_host_procedures.md R93).
-/

namespace Sys2Proof.Machine

/-- The states the spec speaks of (R27): intensities 0..9, ACT below NUM_BUFFERS, CNT 0..8, STATUS[7] 0; and, of this
model's representation, NUM_BUFFERS in its range (R6) and the memory in canonical form with only addresses of the segment
space listed (R30). -/
abbrev State.Legal (s : State) : Prop :=
  (1 ≤ s.numBuffers ∧ s.numBuffers ≤ 4) ∧
  Memory.wf s.seg = true ∧
  (∀ cell ∈ s.seg, cell.1 < 64 * s.numBuffers ∧ cell.2.toNat ≤ 9) ∧
  s.act.toNat < s.numBuffers ∧
  s.cnt.toNat ≤ 8 ∧
  s.status.getLsbD 7 = false

/-- A state a run may start from (R27, R97). -/
abbrev State.Launch (s : State) : Prop := s.Legal ∧ s.faults = []

/-- A run a claim may be about: no illegal command was issued (R97, R132). -/
abbrev State.Safe (s : State) : Prop := s.faults = []

/-- What is observed of a run (R97): the final state of 10_state.md, the frames, the responses and the faults. -/
structure Observation where
  seg : Memory
  act : BitVec 2
  cnt : BitVec 4
  status : Byte
  latch : Frame
  frames : List Frame
  responses : List Byte
  faults : List FaultRecord
  deriving DecidableEq, Repr

/-- The observation of a run that ends in this state. -/
def State.observation (s : State) : Observation :=
  ⟨s.seg, s.act, s.cnt, s.status, s.latch, s.frames, s.responses, s.faults⟩

/-- What the agents still have to do, and what has been drawn for them. -/
structure AgentState where
  tickPending : Nat
  hostPending : List HostOp
  hostRun : Option Procedure
  otherPending : List Word
  draws : Nat
  deriving DecidableEq, Repr

/-- The machine with the agents in another state: no command of the block reads or writes them (R26). -/
def State.withAgents (s : State) (g : AgentState) : State :=
  { s with tickPending := g.tickPending, hostPending := g.hostPending, hostRun := g.hostRun,
           otherPending := g.otherPending, draws := g.draws }

/-- The agents' part of a state. -/
def State.agents (s : State) : AgentState := ⟨s.tickPending, s.hostPending, s.hostRun, s.otherPending, s.draws⟩

/-- An outcome with its next state, if it has one, changed by f. -/
def mapNext (f : State → State) :
    Host.Outcome State Fault Refusal → Host.Outcome State Fault Refusal
  | .next t => .next (f t)
  | .fault r => .fault r
  | .refused r => .refused r

/-- The bits that must be 0 in a word of an opcode of R47's table: the reserved bits (R48) and those of the fields the opcode
does not use, with bits 15 and 7 for STW (R49). -/
def mustBeZero (op : BitVec 4) : Word :=
  match op.toNat with
  | 0x2 => 0x0CC0FF00
  | 0x3 => 0x0CC0FFFF
  | 0x4 => 0x0CFFFFFF
  | 0x6 => 0x0FFF8080
  | _ => 0x0FFFFFFF

/-- OP is 0x0 or 0xA..0xF (R50). -/
abbrev IllegalOpcode (w : Word) : Prop := (fieldOP w).toNat = 0 ∨ 0xA ≤ (fieldOP w).toNat

/-- A reserved bit or a bit of an unused field is 1 (R101's second case). -/
abbrev SetsReservedBits (w : Word) : Prop := w &&& mustBeZero (fieldOP w) ≠ 0

/-- SEGW, SEGR or SEL names a buffer that does not exist (R101's third case). -/
abbrev NamesAbsentBuffer (numBuffers : Nat) (w : Word) : Prop :=
  ((fieldOP w).toNat = 2 ∨ (fieldOP w).toNat = 3 ∨ (fieldOP w).toNat = 4) ∧ numBuffers ≤ (fieldB w).toNat

/-- SEGW stores a value above 9 (R101's fourth case). -/
abbrev StoresIllegalValue (w : Word) : Prop := (fieldOP w).toNat = 2 ∧ 9 < (fieldD w).toNat

/-- `zs` is an interleaving of `xs` and `ys`: all of both, each in its own order (R38). -/
inductive Interleaving : List Word → List Word → List Word → Prop where
  | nil : Interleaving [] [] []
  | left (x : Word) {xs ys zs : List Word} : Interleaving xs ys zs → Interleaving (x :: xs) ys (x :: zs)
  | right (y : Word) {xs ys zs : List Word} : Interleaving xs ys zs → Interleaving xs (y :: ys) (y :: zs)

/-- A command that may stand between the TICKs of a sweep whose duty is to be right (40_refresh.md R67): it neither writes the
active buffer, nor selects another, nor resets the block. One that turns refresh off makes TICKs no-ops until refresh is on again,
and R67 counts enabled TICKs only. -/
def keepsSweep (act : BufferIndex) : Instr → Bool
  | .tick => true
  | .segw b _ _ => b != act
  | .segr _ _ => true
  | .sel b => b == act
  | .str => true
  | .stw _ _ => true
  | .dtake => true
  | .ddis => true
  | .rst => false

/-- The same of a command word; an illegal word changes no state of the block (60_exceptions.md R102). -/
def wordKeepsSweep (act : BufferIndex) (w : Word) : Bool :=
  match decode w with
  | .ok i => keepsSweep act i
  | .error _ => true

/-- The frames that the enabled TICKs among command words emit, in order, when the words are executed from s: those of DDIS and
RST are none of them. -/
def tickFrames : List Word → State → List Frame
  | [], _ => []
  | w :: ws, s =>
    match execWord w s with
    | .next t => (if decode w = .ok .tick ∧ statusEN s.status = true then [t.latch] else []) ++ tickFrames ws t
    | .fault _ => []
    | .refused _ => []

/-- The host is between taking a completion and enabling refresh again, or hangs there (R93: the stepping pass and what leads to
it). -/
def Phase.quiet : Phase → Bool
  | .poll => false
  | .readStatus => true
  | .throttle _ => true
  | .readActive _ _ => true
  | .readTarget _ _ _ => true
  | .writeActive _ _ => true
  | .finishPass _ => true
  | .leave => false
  | .hung => true

/-- A command that leaves DONE, ONE and EN as they are, but for what every TICK does. -/
def leavesFlags : Instr → Bool
  | .tick => true
  | .segw _ _ _ => true
  | .segr _ _ => true
  | .sel _ => true
  | .str => true
  | .stw _ m => !m.getLsbD 4 && !m.getLsbD 5 && !m.getLsbD 6
  | .dtake => false
  | .ddis => false
  | .rst => false

/-- The same of a command word; an illegal word changes no state of the block (60_exceptions.md R102). -/
def wordLeavesFlags (w : Word) : Bool :=
  match decode w with
  | .ok i => leavesFlags i
  | .error _ => true

/-- A command word that sets EN or DONE by itself: an STW that writes 1 to one of them (70_reset_and_hazards.md R126, "nothing
sets it again"). -/
def wordSetsFlag (w : Word) : Bool :=
  match decode w with
  | .ok (.stw d m) => (m.getLsbD 6 && d.getLsbD 6) || (m.getLsbD 4 && d.getLsbD 4)
  | .ok _ => false
  | .error _ => false

/-- Where a running crossfade has the flags: no other part of the host writes them; one-cycle mode throughout; while the crossfade
waits, refresh is on exactly until the wrap that sets DONE; while it is quiet, refresh is off and DONE taken. -/
def State.CrossfadeDiscipline (s : State) : Prop :=
  (∀ w ∈ s.otherPending, wordLeavesFlags w = true) ∧
  match s.hostRun with
  | none => True
  | some .awaitDone => True
  | some (.crossfade c) =>
    statusONE s.status = true ∧
    (c.phase = .poll → statusEN s.status = !statusDONE s.status) ∧
    (c.phase.quiet = true → statusEN s.status = false ∧ statusDONE s.status = false)

/-- The value a crossfade leaves in a segment that held `a0`, for the target value `t` (R90). -/
def crossfadeResult (a0 t : Byte) : Byte := if t = 0 ∨ a0.toNat ≤ t.toNat then t else a0

end Sys2Proof.Machine
end

