-- ==== Sys2Proof/Certificates/Slice0/Obligations.lean ====
section
/-!
DEFINITION. The statements about the machine, for the provers. Each says which rule of the spec it formalises. A rule the spec
marks `[derived: …]`, and what this model chose, is named as such.
-/

open Sys2Proof Sys2Proof.Machine

/-! ## Encoding (30_encoding.md) -/

/-- Words written out from R47's bit patterns and the vectors of 95_test_vectors.md section 2.5 decode to the commands, or to
the fault codes, they stand for. -/
def Obligations.TableWordsDecode : Prop :=
  decode 0b00010000000000000000000000000000#32 = .ok .tick ∧
  decode 0b00100000000101110000000000000111#32 = .ok (.segw 0 23 7) ∧
  decode 0b00110011001111110000000000000000#32 = .ok (.segr 3 63) ∧
  decode 0b01000001000000000000000000000000#32 = .ok (.sel 1) ∧
  decode 0b01010000000000000000000000000000#32 = .ok .str ∧
  decode 0b01100000000000000111110001100000#32 = .ok (.stw 0x60 0x7C) ∧
  decode 0b01110000000000000000000000000000#32 = .ok .dtake ∧
  decode 0b10000000000000000000000000000000#32 = .ok .ddis ∧
  decode 0b10010000000000000000000000000000#32 = .ok .rst ∧
  decode 0x00000000 = .error .illegalOpcode ∧
  decode 0xA0000000 = .error .illegalOpcode ∧
  decode 0xF0000000 = .error .illegalOpcode ∧
  decode 0x10000001 = .error .reservedBits ∧
  decode 0x20400000 = .error .reservedBits ∧
  decode 0x24000000 = .error .reservedBits ∧
  decode 0x6000C000 = .error .reservedBits ∧
  decode 0x7F000000 = .error .reservedBits

/-- Decoding a command's word gives the command back, with every operand at every value the encoding admits: no bit of an
encoding is dropped (R45 to R47). -/
def Obligations.DecodeOfEncodeIsTheCommand : Prop :=
  ∀ i : Instr, decode (encode i) = .ok i

/-- A word that decodes is its command's word: each legal word is exactly one command, and each command has one word (R51, which
the spec marks as derived from R47 to R50). -/
def Obligations.EncodeOfDecodeIsTheWord : Prop :=
  ∀ (w : Word) (i : Instr), decode w = .ok i → encode i = w

/-- R49's table (which the spec marks as derived from R45, R47, R48 and R49): a word is the command X, with the operands R46
extracts, exactly when `w & mask_X` is `match_X`. -/
def Obligations.WordIsCommandExactlyByMaskAndMatch : Prop :=
  ∀ w : Word,
    (decode w = .ok .tick ↔ w &&& 0xFFFFFFFF = 0x10000000) ∧
    (decode w = .ok (.segw (w.extractLsb' 24 2) (w.extractLsb' 16 6) (w.extractLsb' 0 8)) ↔
      w &&& 0xFCC0FF00 = 0x20000000) ∧
    (decode w = .ok (.segr (w.extractLsb' 24 2) (w.extractLsb' 16 6)) ↔ w &&& 0xFCC0FFFF = 0x30000000) ∧
    (decode w = .ok (.sel (w.extractLsb' 24 2)) ↔ w &&& 0xFCFFFFFF = 0x40000000) ∧
    (decode w = .ok .str ↔ w &&& 0xFFFFFFFF = 0x50000000) ∧
    (decode w = .ok (.stw (w.extractLsb' 0 7) (w.extractLsb' 8 7)) ↔ w &&& 0xFFFF8080 = 0x60000000) ∧
    (decode w = .ok .dtake ↔ w &&& 0xFFFFFFFF = 0x70000000) ∧
    (decode w = .ok .ddis ↔ w &&& 0xFFFFFFFF = 0x80000000) ∧
    (decode w = .ok .rst ↔ w &&& 0xFFFFFFFF = 0x90000000)

/-- The assembler's words (R54's two tables): each syntax and each pseudo-command has the word given, and an operand that does
not fit its field is refused. That SETRATE and SETSTEP refuse operands above 3 is the model's reading of "0..3" (assumption
log 8). -/
def Obligations.AssemblerWordsAreTheTables : Prop :=
  assemble .tick = some 0x10000000 ∧
  (∀ b s d, assemble (.segw b s d) =
    if b ≤ 3 ∧ s ≤ 63 ∧ d ≤ 255 then
      some (0x20000000#32 ||| BitVec.ofNat 32 b <<< 24 ||| BitVec.ofNat 32 s <<< 16 ||| BitVec.ofNat 32 d) else none) ∧
  (∀ b s, assemble (.segr b s) =
    if b ≤ 3 ∧ s ≤ 63 then some (0x30000000#32 ||| BitVec.ofNat 32 b <<< 24 ||| BitVec.ofNat 32 s <<< 16) else none) ∧
  (∀ b, assemble (.sel b) = if b ≤ 3 then some (0x40000000#32 ||| BitVec.ofNat 32 b <<< 24) else none) ∧
  assemble .str = some 0x50000000 ∧
  (∀ d m, assemble (.stw d m) =
    if d ≤ 127 ∧ m ≤ 127 then some (0x60000000#32 ||| BitVec.ofNat 32 m <<< 8 ||| BitVec.ofNat 32 d) else none) ∧
  assemble .dtake = some 0x70000000 ∧
  assemble .ddis = some 0x80000000 ∧
  assemble .rst = some 0x90000000 ∧
  assemble .nop = some 0x60000000 ∧
  assemble .den = some 0x60004040 ∧
  assemble .susp = some 0x60004000 ∧
  assemble .onecyc = some 0x60006060 ∧
  assemble .cont = some 0x60006040 ∧
  assemble .dclr = some 0x60001000 ∧
  (∀ r, assemble (.setrate r) = if r ≤ 3 then some (0x60000300#32 ||| BitVec.ofNat 32 r) else none) ∧
  (∀ s, assemble (.setstep s) = if s ≤ 3 then some (0x60000C00#32 ||| BitVec.ofNat 32 s <<< 2) else none) ∧
  (∀ b, assemble (.showBuffer b) = if b ≤ 3 then some (0x40000000#32 ||| BitVec.ofNat 32 b <<< 24) else none)

/-! ## Illegal commands (60_exceptions.md) -/

/-- R101 to R103: an illegal word appends (code, word) to FAULTS and changes nothing else, gives no response and emits no frame;
the code is the first that applies in R103's order; a legal command records no fault. -/
def Obligations.IllegalWordIsRecordedAndIgnored : Prop :=
  (FaultCode.illegalOpcode.number = 1 ∧ FaultCode.reservedBits.number = 2 ∧
    FaultCode.badBuffer.number = 3 ∧ FaultCode.badValue.number = 4) ∧
  ∀ (w : Word) (s : State),
    (IllegalOpcode w → execWord w s = .next { s with faults := s.faults ++ [⟨.illegalOpcode, w⟩] }) ∧
    (¬IllegalOpcode w → SetsReservedBits w →
      execWord w s = .next { s with faults := s.faults ++ [⟨.reservedBits, w⟩] }) ∧
    (¬IllegalOpcode w → ¬SetsReservedBits w → NamesAbsentBuffer s.numBuffers w →
      execWord w s = .next { s with faults := s.faults ++ [⟨.badBuffer, w⟩] }) ∧
    (¬IllegalOpcode w → ¬SetsReservedBits w → ¬NamesAbsentBuffer s.numBuffers w → StoresIllegalValue w →
      execWord w s = .next { s with faults := s.faults ++ [⟨.badValue, w⟩] }) ∧
    (¬IllegalOpcode w → ¬SetsReservedBits w → ¬NamesAbsentBuffer s.numBuffers w → ¬StoresIllegalValue w →
      ∀ t, execWord w s = .next t → t.faults = s.faults)

/-! ## TICK (40_refresh.md) -/

/-- R61: with STATUS.EN 0, TICK changes nothing at all, in any state; so the display keeps showing what it showed. -/
def Obligations.TickWhileDisabledDoesNothing : Prop :=
  ∀ s : State, s.status.getLsbD 6 = false → exec .tick s = .next s

/-- R60, R62, R65: with EN 1, TICK emits the frame whose bit i is `SEG[ACT][i] > CNT`, and advances the counter; on the wrap CNT
becomes 0, DONE 1, and EN 0 when ONE is 1. Everything else is unchanged. -/
def Obligations.TickEmitsTheFrameAndAdvances : Prop :=
  ∀ s : State, s.status.getLsbD 6 = true → s.act.toNat < s.numBuffers → s.cnt.toNat ≤ 8 →
    ∃ F : Frame,
      (∀ i : SegmentIndex, F.getLsbD i.toNat = decide (s.cnt.toNat < (readSegment s s.act i).toNat)) ∧
      exec .tick s = .next { s with
        latch := F
        frames := s.frames ++ [F]
        cnt := if s.cnt.toNat = 8 then 0 else s.cnt + 1
        status :=
          if s.cnt.toNat = 8 then
            (if s.status.getLsbD 5 then (s.status ||| 0x10) &&& 0xBF else s.status ||| 0x10)
          else s.status }

/-- The launch states the spec puts outside itself (U7, R27; assumption log 5): with refresh enabled, TICK is given no meaning
where ACT names no buffer or CNT is above 8. -/
def Obligations.TickHasNoMeaningOutsideLaunchStates : Prop :=
  ∀ s : State, s.status.getLsbD 6 = true → (s.numBuffers ≤ s.act.toNat ∨ 8 < s.cnt.toNat) →
    exec .tick s = .refused .outsideLaunchState

/-- R66: TICK never writes SEG, ACT, RATE, STEP or ONE, and does not read RATE or STEP: with other values in those four bits it
does the same and leaves those values. -/
def Obligations.TickLeavesAloneWhatItMust : Prop :=
  (∀ s t : State, exec .tick s = .next t →
    t.seg = s.seg ∧ t.act = s.act ∧
    (∀ j : Nat, j ≠ 4 → j ≠ 6 → t.status.getLsbD j = s.status.getLsbD j) ∧
    t.numBuffers = s.numBuffers ∧ t.faults = s.faults ∧ t.responses = s.responses ∧ t.agents = s.agents) ∧
  (∀ (s t : State) (r : Byte), r &&& 0xF0 = 0 → exec .tick s = .next t →
    exec .tick { s with status := (s.status &&& 0xF0) ||| r } =
      .next { t with status := (t.status &&& 0xF0) ||| r })

/-- R63: a lane of the frame depends on its own segment's value and on CNT alone; the compare is unsigned, so a value of 10 or
more, which no legal state holds, would be lit at every counter. -/
def Obligations.LanesAreIndependent : Prop :=
  (∀ (s u t v : State) (i : SegmentIndex),
    s.status.getLsbD 6 = true → u.status.getLsbD 6 = true → s.cnt = u.cnt →
    readSegment s s.act i = readSegment u u.act i →
    exec .tick s = .next t → exec .tick u = .next v → t.latch.getLsbD i.toNat = v.latch.getLsbD i.toNat) ∧
  (∀ (s t : State) (i : SegmentIndex), s.status.getLsbD 6 = true → 10 ≤ (readSegment s s.act i).toNat →
    exec .tick s = .next t → t.latch.getLsbD i.toNat = true)

/-- R60, R10: of the segment buffers TICK reads only the active one: with other contents in the others it does the same, and
leaves those contents. -/
def Obligations.TickReadsOnlyTheActiveBuffer : Prop :=
  ∀ (s : State) (m : Memory), (∀ i : SegmentIndex, Memory.read m (segKey s.act i) = readSegment s s.act i) →
    exec .tick { s with seg := m } = mapNext (fun t => { t with seg := m }) (exec .tick s)

/-- Duty fidelity (R67, which the spec marks as derived from R62 and R65, and which corrects the source by 90_conflicts.md C1):
take command words from CNT = 0 of which none writes the active buffer, selects another or resets the block, and whose enabled
TICKs are eight; then, refresh being on, one more TICK. They complete; of the nine frames that the enabled TICKs emit, a segment
of value v is lit in exactly the first v; and the ninth TICK sets DONE. -/
def Obligations.DutyFidelityOverASweep : Prop :=
  ∀ (s : State) (ws : List Word), s.Legal → s.cnt = 0 → (∀ w ∈ ws, wordKeepsSweep s.act w = true) →
    (tickFrames ws s).length = 8 →
    ∃ t : State, execWords ws s = .next t ∧ (t.status.getLsbD 6 = true →
      ∃ u : State, exec .tick t = .next u ∧ u.status.getLsbD 4 = true ∧ u.cnt = 0 ∧
        tickFrames (ws ++ [encode .tick]) s = tickFrames ws s ++ [u.latch] ∧
        ∀ i : SegmentIndex,
          (∀ (c : Nat) (h : c < (tickFrames ws s ++ [u.latch]).length),
            ((tickFrames ws s ++ [u.latch])[c]).getLsbD i.toNat = decide (c < (readSegment s s.act i).toNat)) ∧
          ((tickFrames ws s ++ [u.latch]).filter fun F => F.getLsbD i.toNat).length = (readSegment s s.act i).toNat)

/-- Nesting (R68, which the spec marks as derived from R62): the frame of one enabled TICK contains the next one's within a
sweep; at CNT 0 every segment with a nonzero value is lit, at CNT 8 only those with 9. -/
def Obligations.SweepFramesNest : Prop :=
  ∀ s : State, s.Legal → s.status.getLsbD 6 = true → s.cnt.toNat < 8 →
    ∃ t u : State, exec .tick s = .next t ∧ exec .tick t = .next u ∧
      u.latch &&& ~~~t.latch = 0 ∧
      (s.cnt.toNat = 0 → ∀ i : SegmentIndex,
        t.latch.getLsbD i.toNat = decide (1 ≤ (readSegment s s.act i).toNat)) ∧
      (s.cnt.toNat = 7 → ∀ i : SegmentIndex,
        u.latch.getLsbD i.toNat = decide (readSegment s s.act i = 9))

/-- Under continuous refresh the wrap comes every 9 TICKs, whether or not DONE was cleared, and DONE counts nothing (R69, which
the spec marks as derived from R65 and R18): no wrap comes before 9 - CNT TICKs and one comes then; after a wrap, with DONE left
set or cleared, none comes before nine TICKs more and one comes then. -/
def Obligations.ContinuousRefreshHasPeriodNine : Prop :=
  ∀ s : State, s.Legal → s.status.getLsbD 6 = true → s.status.getLsbD 5 = false →
    (∀ j : Nat, j < 9 - s.cnt.toNat → ∃ t : State, execWords (List.replicate j (encode .tick)) s = .next t ∧
      t.cnt.toNat = s.cnt.toNat + j ∧ t.status = s.status ∧ t.frames.length = s.frames.length + j) ∧
    ∃ t : State, execWords (List.replicate (9 - s.cnt.toNat) (encode .tick)) s = .next t ∧
      t.cnt = 0 ∧ t.status = s.status ||| 0x10 ∧ t.frames.length = s.frames.length + (9 - s.cnt.toNat) ∧ t.seg = s.seg ∧
      ∀ w : Byte, w = t.status ∨ w = t.status &&& 0xEF →
        (∀ j : Nat, j < 9 → ∃ u : State, execWords (List.replicate j (encode .tick)) { t with status := w } = .next u ∧
          u.cnt.toNat = j ∧ u.status = w) ∧
        ∃ u : State, execWords (List.replicate 9 (encode .tick)) { t with status := w } = .next u ∧
          u.cnt = 0 ∧ u.status = w ||| 0x10 ∧ u.frames.length = t.frames.length + 9 ∧ u.seg = s.seg

/-- One-cycle mode (R130, which the spec marks as derived from R65): the wrap comes after 9 - CNT enabled TICKs and not before;
it sets DONE, clears EN and leaves CNT 0; every TICK after it, until the host enables refresh, changes nothing. -/
def Obligations.OneCycleModeSuspendsAtTheWrap : Prop :=
  ∀ s : State, s.Legal → s.status.getLsbD 6 = true → s.status.getLsbD 5 = true →
    (∀ j : Nat, j < 9 - s.cnt.toNat → ∃ t : State, execWords (List.replicate j (encode .tick)) s = .next t ∧
      t.cnt.toNat = s.cnt.toNat + j ∧ t.status = s.status) ∧
    (∃ t : State, execWords (List.replicate (9 - s.cnt.toNat) (encode .tick)) s = .next t ∧
      t.cnt = 0 ∧ t.status = (s.status ||| 0x10) &&& 0xBF ∧
      t.frames.length = s.frames.length + (9 - s.cnt.toNat) ∧
      ∀ m : Nat, execWords (List.replicate m (encode .tick)) t = .next t)

/-! ## Segment buffers (41_segment_buffer.md, 20_memory.md) -/

/-- R70: SEGW, whose word is given, stores D at SEG[B][S], at that address alone, and changes nothing else; an absent buffer,
then a value above 9, is a recorded fault that writes nothing. -/
def Obligations.SegwStoresTheIntensity : Prop :=
  (∀ (b : BufferIndex) (i : SegmentIndex) (d : Byte), encode (.segw b i d) =
    0x20000000#32 ||| b.zeroExtend 32 <<< 24 ||| i.zeroExtend 32 <<< 16 ||| d.zeroExtend 32) ∧
  ∀ (s : State) (b : BufferIndex) (i : SegmentIndex) (d : Byte),
    (s.numBuffers ≤ b.toNat → exec (.segw b i d) s =
      .next { s with faults := s.faults ++ [⟨.badBuffer, encode (.segw b i d)⟩] }) ∧
    (b.toNat < s.numBuffers → 9 < d.toNat → exec (.segw b i d) s =
      .next { s with faults := s.faults ++ [⟨.badValue, encode (.segw b i d)⟩] }) ∧
    (b.toNat < s.numBuffers → d.toNat ≤ 9 →
      ∃ m : Memory, exec (.segw b i d) s = .next { s with seg := m } ∧
        Memory.read m (segKey b i) = d ∧
        ∀ a : Nat, a ≠ segKey b i → Memory.read m a = Memory.read s.seg a)

/-- R71: SEGR, whose word is given, responds the byte SEG[B][S] and changes no state of the block; an absent buffer is a
recorded fault with no response. -/
def Obligations.SegrRespondsTheByte : Prop :=
  (∀ (b : BufferIndex) (i : SegmentIndex), encode (.segr b i) =
    0x30000000#32 ||| b.zeroExtend 32 <<< 24 ||| i.zeroExtend 32 <<< 16) ∧
  ∀ (s : State) (b : BufferIndex) (i : SegmentIndex),
    (s.numBuffers ≤ b.toNat → exec (.segr b i) s =
      .next { s with faults := s.faults ++ [⟨.badBuffer, encode (.segr b i)⟩] }) ∧
    (b.toNat < s.numBuffers → exec (.segr b i) s =
      .next { s with responses := s.responses ++ [readSegment s b i] })

/-- R72: SEL, whose word is given, sets ACT and nothing else, CNT and LATCH included; an absent buffer is a recorded fault. -/
def Obligations.SelSetsTheActiveBuffer : Prop :=
  (∀ b : BufferIndex, encode (.sel b) = 0x40000000#32 ||| b.zeroExtend 32 <<< 24) ∧
  ∀ (s : State) (b : BufferIndex),
    (s.numBuffers ≤ b.toNat → exec (.sel b) s =
      .next { s with faults := s.faults ++ [⟨.badBuffer, encode (.sel b)⟩] }) ∧
    (b.toNat < s.numBuffers → exec (.sel b) s = .next { s with act := b })

/-- What a SEGW does to the display (R40, R74; R74 the spec marks as derived from R70, R72 and R62): to the active buffer, the
next enabled TICK shows the new value in its lane and the old ones in the others; to another buffer, the next TICK emits what it
would have emitted. -/
def Obligations.SegwReachesTheNextFrameOnlyThroughTheActiveBuffer : Prop :=
  ∀ (s : State) (b : BufferIndex) (i : SegmentIndex) (d : Byte), s.Legal → b.toNat < s.numBuffers → d.toNat ≤ 9 →
    s.status.getLsbD 6 = true →
    ∃ t u v : State, exec (.segw b i d) s = .next t ∧ exec .tick t = .next u ∧ exec .tick s = .next v ∧
      (b = s.act → u.latch.getLsbD i.toNat = decide (s.cnt.toNat < d.toNat) ∧
        ∀ j : SegmentIndex, j ≠ i → u.latch.getLsbD j.toNat = v.latch.getLsbD j.toNat) ∧
      (b ≠ s.act → u.latch = v.latch ∧ u.frames = v.frames) ∧
      u.cnt = v.cnt ∧ u.status = v.status

/-- R128: a SEL in the middle of a sweep makes the next TICK compare the new buffer with the running CNT. -/
def Obligations.SelMidSweepComparesTheNewBuffer : Prop :=
  ∀ (s : State) (b : BufferIndex), s.Legal → b.toNat < s.numBuffers → s.status.getLsbD 6 = true →
    ∃ t u : State, exec (.sel b) s = .next t ∧ exec .tick t = .next u ∧ t.cnt = s.cnt ∧ t.latch = s.latch ∧
      ∀ i : SegmentIndex, u.latch.getLsbD i.toNat = decide (s.cnt.toNat < (readSegment s b i).toNat)

/-- No pipeline hazards (R123): an SEGR right after an SEGW to the same address responds the written value, an STR right after
an STW the written fields. -/
def Obligations.ReadRightAfterWriteSeesIt : Prop :=
  (∀ (s : State) (b : BufferIndex) (i : SegmentIndex) (d : Byte), b.toNat < s.numBuffers → d.toNat ≤ 9 →
    ∃ t u : State, exec (.segw b i d) s = .next t ∧ exec (.segr b i) t = .next u ∧
      u.responses = s.responses ++ [d]) ∧
  (∀ (s : State) (d m : BitVec 7),
    ∃ t u : State, exec (.stw d m) s = .next t ∧ exec .str t = .next u ∧
      ∃ r : Byte, u.responses = s.responses ++ [r] ∧ ∀ j : Nat, m.getLsbD j = true → r.getLsbD j = d.getLsbD j)

/-- Idempotency (R36, which the spec marks as derived): a legal SEGW, SEL or STW twice is the same as once; a second DTAKE
responds 0; DDIS twice differs from once by one more blank frame. -/
def Obligations.RepeatedCommands : Prop :=
  (∀ (s t : State) (i : Instr),
    (match i with | .segw _ _ _ => True | .sel _ => True | .stw _ _ => True | _ => False) →
    i.wellFormed s.numBuffers = true → s.Legal → exec i s = .next t → exec i t = .next t) ∧
  (∀ s : State, ∃ t u : State, exec .dtake s = .next t ∧ exec .dtake t = .next u ∧
    u.responses = t.responses ++ [0] ∧ u.status = t.status) ∧
  (∀ s : State, ∃ t : State, exec .ddis s = .next t ∧
    exec .ddis t = .next { t with frames := t.frames ++ [0] })

/-! ## Status and control (42_status_control.md) -/

/-- R75: STR, whose word is given, responds STATUS and changes no state of the block. -/
def Obligations.StrRespondsStatus : Prop :=
  encode .str = 0x50000000 ∧
  ∀ s : State, exec .str s = .next { s with responses := s.responses ++ [s.status] }

/-- R76: STW, whose word is given, gives each STATUS bit under the mask its data bit, leaves the others and bit 7, and changes
nothing else. -/
def Obligations.StwWritesUnderTheMask : Prop :=
  (∀ d m : BitVec 7, encode (.stw d m) = 0x60000000#32 ||| m.zeroExtend 32 <<< 8 ||| d.zeroExtend 32) ∧
  ∀ (s : State) (d m : BitVec 7), ∃ w : Byte, exec (.stw d m) s = .next { s with status := w } ∧
    (∀ j : Nat, j < 7 → w.getLsbD j = if m.getLsbD j then d.getLsbD j else s.status.getLsbD j) ∧
    w.getLsbD 7 = s.status.getLsbD 7

/-- R77: DTAKE, whose word is given, responds DONE as 0x00 or 0x01, clears it, and changes nothing else. -/
def Obligations.DtakeTakesTheFlag : Prop :=
  encode .dtake = 0x70000000 ∧
  ∀ s : State, exec .dtake s = .next { s with
    status := s.status &&& 0xEF
    responses := s.responses ++ [if s.status.getLsbD 4 then 0x01 else 0x00] }

/-- R78: STR, STW and DTAKE never change SEG, ACT, CNT, LATCH or FRAMES, and never emit a frame. -/
def Obligations.StatusCommandsLeaveTheRestAlone : Prop :=
  ∀ (i : Instr) (s t : State), (i = .str ∨ i = .dtake ∨ ∃ d m, i = .stw d m) → exec i s = .next t →
    t.seg = s.seg ∧ t.act = s.act ∧ t.cnt = s.cnt ∧ t.latch = s.latch ∧ t.frames = s.frames ∧ t.faults = s.faults ∧
    t.busCalls = s.busCalls

/-- R79: DDIS, whose word is given, clears EN and emits one blank frame, whether or not EN was 1, and changes nothing else. -/
def Obligations.DdisBlanksAndHaltsRefresh : Prop :=
  encode .ddis = 0x80000000 ∧
  ∀ s : State, exec .ddis s = .next { s with
    status := s.status &&& 0xBF
    latch := 0
    frames := s.frames ++ [0] }

/-- R80, R121: RST, whose word is given, gives every segment byte, ACT, CNT and STATUS the value 0 and emits one blank frame;
FRAMES and FAULTS keep their entries. -/
def Obligations.RstResetsTheBlock : Prop :=
  encode .rst = 0x90000000 ∧
  ∀ s : State, ∃ m : Memory, (∀ a : Nat, Memory.read m a = 0) ∧
    exec .rst s = .next { s with
      seg := m
      act := 0
      cnt := 0
      status := 0x00
      latch := 0
      frames := s.frames ++ [0] }

/-! ## Reset and invariants (70_reset_and_hazards.md, 10_state.md) -/

/-- R120: at power-on every segment byte, ACT, CNT, STATUS and LATCH are 0, and FRAMES and FAULTS are empty; the default
NUM_BUFFERS is 2 (R6). -/
def Obligations.PowerOnValues : Prop :=
  State.reset.numBuffers = 2 ∧
  ∀ n : Nat, (∀ b i, readSegment (State.powerOn n) b i = 0) ∧ (State.powerOn n).act = 0 ∧ (State.powerOn n).cnt = 0 ∧
    (State.powerOn n).status = 0x00 ∧ (State.powerOn n).latch = 0 ∧ (State.powerOn n).frames = [] ∧
    (State.powerOn n).faults = []

/-- The invariants hold at reset, for each NUM_BUFFERS of R6: the four conditions of R27, and the crossfade's discipline. -/
def Obligations.PowerOnMeetsTheInvariants : Prop :=
  ∀ n : Nat, 1 ≤ n → n ≤ 4 → (State.powerOn n).Launch ∧ (State.powerOn n).CrossfadeDiscipline

/-- R27 (which the spec marks as derived): from every legal state a step gives a legal state: intensities in 0..9, ACT below
NUM_BUFFERS, CNT in 0..8, STATUS[7] 0, and the memory in its canonical form. -/
def Obligations.StepKeepsLegalStates : Prop :=
  ∀ s t : State, s.Legal → step s = .next t → t.Legal

/-- R12: in a legal state every segment byte reads as a value in 0..9. -/
def Obligations.SegmentBytesAreIntensities : Prop :=
  ∀ (s : State) (b : BufferIndex) (i : SegmentIndex), s.Legal → (readSegment s b i).toNat ≤ 9

/-- In a legal state every command completes, and a command with legal operands records no fault (R101: "No legal command
faults"). -/
def Obligations.EveryCommandCompletesInLegalStates : Prop :=
  ∀ (s : State) (i : Instr), s.Legal →
    ∃ t : State, exec i s = .next t ∧ (i.wellFormed s.numBuffers = true → t.faults = s.faults)

/-- In a legal state the machine stops only where no agent has a command: none is left, or the host waits for a response that
never comes (R1, R102). That the machine then answers the fault noCommand is the model's choice (assumption log 1). -/
def Obligations.StepStopsOnlyWithoutACommand : Prop :=
  ∀ s : State, s.Legal →
    (∃ t : State, step s = .next t) ∨
    (step s = .fault .noCommand ∧ s.tickPending = 0 ∧ s.otherPending = [] ∧
      ((s.hostRun = none ∧ s.hostPending = []) ∨
        ∃ c : Crossfade, s.hostRun = some (.crossfade c) ∧ c.phase = .hung))

/-- Who writes what, over all commands (R10, R13, R14, R16 to R23, R53, R113): SEG only SEGW and RST; ACT only SEL and RST;
CNT only TICK and RST; RATE, STEP and ONE only STW and RST; DONE is set only by a wrapping TICK and STW, and cleared only by
DTAKE, STW and RST; EN is set only by an STW that writes 1 to it, and cleared only by a wrapping TICK with ONE 1, STW, DDIS
and RST; STATUS bit 7 only RST; LATCH and FRAMES only TICK, DDIS and RST; FAULTS only SEGW, SEGR and SEL with illegal
operands; the responses only SEGR, STR and DTAKE; NUM_BUFFERS and the agents no command. -/
def Obligations.WritersOfEachRegister : Prop :=
  ∀ (i : Instr) (s t : State), exec i s = .next t →
    (t.seg ≠ s.seg → i = .rst ∨ ∃ b j d, i = .segw b j d) ∧
    (t.act ≠ s.act → i = .rst ∨ ∃ b, i = .sel b) ∧
    (t.cnt ≠ s.cnt → i = .rst ∨ i = .tick) ∧
    (∀ j : Nat, j < 4 ∨ j = 5 → t.status.getLsbD j ≠ s.status.getLsbD j → i = .rst ∨ ∃ d m, i = .stw d m) ∧
    (s.status.getLsbD 4 = false → t.status.getLsbD 4 = true →
      (i = .tick ∧ s.cnt.toNat = 8) ∨ ∃ d m, i = .stw d m) ∧
    (s.status.getLsbD 4 = true → t.status.getLsbD 4 = false → i = .dtake ∨ (∃ d m, i = .stw d m) ∨ i = .rst) ∧
    (s.status.getLsbD 6 = false → t.status.getLsbD 6 = true →
      ∃ d m, i = .stw d m ∧ m.getLsbD 6 = true ∧ d.getLsbD 6 = true) ∧
    (s.status.getLsbD 6 = true → t.status.getLsbD 6 = false →
      (i = .tick ∧ s.cnt.toNat = 8 ∧ s.status.getLsbD 5 = true) ∨ (∃ d m, i = .stw d m) ∨ i = .ddis ∨ i = .rst) ∧
    (t.status.getLsbD 7 ≠ s.status.getLsbD 7 → i = .rst) ∧
    (t.latch ≠ s.latch ∨ t.frames ≠ s.frames → i = .tick ∨ i = .ddis ∨ i = .rst) ∧
    (t.faults ≠ s.faults → i.wellFormed s.numBuffers = false ∧
      ((∃ b j d, i = .segw b j d) ∨ (∃ b j, i = .segr b j) ∨ ∃ b, i = .sel b)) ∧
    (t.responses ≠ s.responses → i = .str ∨ i = .dtake ∨ ∃ b j, i = .segr b j) ∧
    t.numBuffers = s.numBuffers ∧ t.agents = s.agents

/-- FRAMES and FAULTS only grow, by a step of any agent (R22, R23: never cleared, not even by RST); so does the model's record
of the responses (R97, assumption log 9). -/
def Obligations.RecordsOnlyGrow : Prop :=
  ∀ s t : State, step s = .next t →
    s.frames <+: t.frames ∧ s.faults <+: t.faults ∧ s.responses <+: t.responses

/-- LATCH is the frame last presented (R21): a step keeps it so. -/
def Obligations.LatchStaysTheLastFrame : Prop :=
  ∀ s t : State, (s.frames = [] ∨ s.frames.getLast? = some s.latch) → step s = .next t →
    (t.frames = [] ∨ t.frames.getLast? = some t.latch)

/-! ## The bus and the geometry (20_memory.md, 10_state.md) -/

/-- R32, R33: group k is `F[8k+7 : 8k]`; the groups go out from G[0] to G[7], in each bit 7 first; so the bit of segment i is
at position 8 (i div 8) + (7 - i mod 8) of the 64 serial bits; one latch pulse follows the last group. -/
def Obligations.FrameGoesOutInSerialOrder : Prop :=
  ∀ F : Frame,
    frameCalls F = [.sendGroup (frameGroup F 0), .sendGroup (frameGroup F 1), .sendGroup (frameGroup F 2),
      .sendGroup (frameGroup F 3), .sendGroup (frameGroup F 4), .sendGroup (frameGroup F 5),
      .sendGroup (frameGroup F 6), .sendGroup (frameGroup F 7), .pulseLatch] ∧
    (∀ k j : Nat, k < 8 → j < 8 → (frameGroup F k).getLsbD j = F.getLsbD (8 * k + j)) ∧
    (frameSerial F).length = 64 ∧
    ∀ i : Nat, i < 64 → (frameSerial F)[8 * (i / 8) + (7 - i % 8)]? = some (F.getLsbD i)

/-- R64, R110: an enabled TICK, DDIS and RST each put on the bus the calls of the one frame that LATCH then holds and the
display shows; no other command puts anything on it. -/
def Obligations.EachEmittingCommandSendsOneFrame : Prop :=
  ∀ (i : Instr) (s t : State), exec i s = .next t →
    ((i = .tick ∧ s.status.getLsbD 6 = true) ∨ i = .ddis ∨ i = .rst →
      t.busCalls = s.busCalls ++ frameCalls t.latch ∧ t.display = t.latch) ∧
    (¬((i = .tick ∧ s.status.getLsbD 6 = true) ∨ i = .ddis ∨ i = .rst) →
      t.busCalls = s.busCalls ∧ t.display = s.display)

/-- R24, R25: the table's ten rows (number, offset, segment count), and that its positions cover the 64 segments without
overlap; segment i below 60 is the emitter of digit i mod 10 in tube i div 10; 60 and 61 are the lamps, 62 and 63 the
auxiliary outputs. -/
def Obligations.GeometryOfTheSegments : Prop :=
  (∀ e : GlowElement, elementOf (segmentOf e) = e) ∧
  (∀ i : SegmentIndex, segmentOf (elementOf i) = i) ∧
  (∀ (p : Fin 6) (d : Fin 10), (segmentOf (.digit p d)).toNat = 10 * p.val + d.val ∧
    Position.offset (.tube p) = 10 * p.val ∧ Position.segmentCount (.tube p) = 10 ∧ Position.number (.tube p) = p.val) ∧
  (Position.number .leftLamp = 6 ∧ Position.offset .leftLamp = 60 ∧ Position.segmentCount .leftLamp = 1 ∧
    segmentOf .leftLamp = 60) ∧
  (Position.number .rightLamp = 7 ∧ Position.offset .rightLamp = 61 ∧ Position.segmentCount .rightLamp = 1 ∧
    segmentOf .rightLamp = 61) ∧
  (Position.number .auxA = 8 ∧ Position.offset .auxA = 62 ∧ Position.segmentCount .auxA = 1 ∧ segmentOf .auxA = 62) ∧
  (Position.number .auxB = 9 ∧ Position.offset .auxB = 63 ∧ Position.segmentCount .auxB = 1 ∧ segmentOf .auxB = 63) ∧
  (∀ i : SegmentIndex, ∃! q : Position,
    Position.offset q ≤ i.toNat ∧ i.toNat < Position.offset q + Position.segmentCount q)

/-! ## Steps, agents and order (00_scope.md, 20_memory.md, 60_exceptions.md) -/

/-- A step runs the decoded command of the agent whose turn it is (R1, R38): the next word of the host's script, a TICK of the
tick agent, the next command of the host's procedure, the first DTAKE of a wait, the next word of another part of the host, or
a word placed by withFetchWord; where more than one agent is ready, one of them issues, the choice being counted. The agents'
fields are the model's (assumption log 1 to 3). -/
def Obligations.StepRunsTheDecodedCommand : Prop :=
  (∀ (s : State) (w : Word) (i : Instr) (rest : List HostOp), s.tickPending = 0 → s.otherPending = [] → s.hostRun = none →
    s.hostPending = .word w :: rest → decode w = .ok i → step s = exec i { s with hostPending := rest }) ∧
  (∀ s : State, 0 < s.tickPending → s.otherPending = [] → s.hostRun = none → s.hostPending = [] →
    step s = exec .tick { s with tickPending := s.tickPending - 1 }) ∧
  (∀ (s : State) (p : Procedure) (i : Instr), s.tickPending = 0 → s.otherPending = [] → s.hostRun = some p →
    p.command = some i → step s = resumeHost p s (exec i s)) ∧
  (∀ (s : State) (rest : List HostOp), s.tickPending = 0 → s.otherPending = [] → s.hostRun = none →
    s.hostPending = .awaitDone :: rest →
    step s = resumeHost .awaitDone s (exec .dtake { s with hostPending := rest })) ∧
  (∀ (s : State) (w : Word) (i : Instr) (rest : List Word), s.tickPending = 0 → s.hostRun = none → s.hostPending = [] →
    s.otherPending = w :: rest → decode w = .ok i → step s = exec i { s with otherPending := rest }) ∧
  (∀ (s : State) (w : Nat) (i : Instr), decodeTableWord 32 w = some i →
    step (s.withFetchWord 32 w) = exec i { s with tickPending := 0, hostRun := none, otherPending := [] }) ∧
  (∀ (s : State) (a b : Agent), a ≠ b → agentReady s a = true → agentReady s b = true →
    ∃ c : Agent, agentReady s c = true ∧ step s = issueAs c { s with draws := s.draws + 1 })

/-- TICK has the same effect whoever issues it (R60; there is one mode and no protected state, R108): the tick agent, the host
or another part of the host. -/
def Obligations.TickIsTheSameFromEitherAgent : Prop :=
  (∀ s : State, mapNext (fun t => t.withAgents s.agents) (issueTick s) = exec .tick s) ∧
  (∀ (s : State) (rest : List HostOp), s.hostRun = none → s.hostPending = .word (encode .tick) :: rest →
    mapNext (fun t => t.withAgents s.agents) (issueHost s) = exec .tick s) ∧
  (∀ (s : State) (rest : List Word), s.otherPending = encode .tick :: rest →
    mapNext (fun t => t.withAgents s.agents) (issueOther s) = exec .tick s)

/-- R38: whatever the free choices, a run of a host's script, another part of the host and the tick agent is the execution of an
interleaving of TICKs with the host's words, themselves an interleaving of the two parts' words, each in its issue order, one
command a step. The agents' fields are the model's (assumption log 2, 3). -/
def Obligations.EveryRunIsAnInterleaving : Prop :=
  ∀ (pick : Nat → Agent) (k : Nat) (s t : State) (ws : List Word),
    s.hostRun = none → s.hostPending = ws.map .word → runWith pick k s = .next t →
    ∃ (n : Nat) (done rest others hostOrder order : List Word),
      n ≤ s.tickPending ∧ t.tickPending = s.tickPending - n ∧
      ws = done ++ rest ∧ t.hostPending = rest.map .word ∧ t.hostRun = none ∧
      s.otherPending = others ++ t.otherPending ∧
      Interleaving done others hostOrder ∧ Interleaving (List.replicate n (encode .tick)) hostOrder order ∧
      order.length = k ∧ execWords order s = .next (t.withAgents s.agents)

/-- R38, R104: every interleaving is admitted: some free choices make the machine run it. The agents' fields are the model's
(assumption log 2, 3). -/
def Obligations.EveryInterleavingIsARun : Prop :=
  ∀ (s t : State) (ws hostOrder order : List Word),
    s.hostRun = none → s.hostPending = ws.map .word → Interleaving ws s.otherPending hostOrder →
    Interleaving (List.replicate s.tickPending (encode .tick)) hostOrder order → execWords order s = .next t →
    ∃ (pick : Nat → Agent) (u : State), runWith pick order.length s = .next u ∧ u.withAgents s.agents = t ∧
      u.tickPending = 0 ∧ u.hostPending = [] ∧ u.otherPending = []

/-- R124: an STW whose mask leaves DONE, ONE and EN alone gives the same state before and after a TICK, so it loses none of the
TICK's update. -/
def Obligations.MaskedUpdateCommutesWithTick : Prop :=
  ∀ (s t : State) (d m : BitVec 7), m.getLsbD 4 = false → m.getLsbD 5 = false → m.getLsbD 6 = false →
    exec .tick s = .next t →
    ∃ u v : State, exec (.stw d m) s = .next u ∧ exec .tick u = .next v ∧ exec (.stw d m) t = .next v

/-- The torn update of 95_test_vectors.md section 2.7 (R124): from STATUS 0x60 and CNT 8, a wrapping TICK between STR and
`STW 0x62, 0x7F` is lost; after the STW it is not; with SETRATE 2 it is not lost in either order. -/
def Obligations.TornStatusUpdate : Prop :=
  ∀ s : State, s.Legal → s.status = 0x60 → s.cnt = 8 →
    (∃ t : State, execWords [encode .str, encode (.stw 0x62 0x7F), encode .tick] s = .next t ∧ t.status = 0x32) ∧
    (∃ t : State, execWords [encode .str, encode .tick, encode (.stw 0x62 0x7F)] s = .next t ∧ t.status = 0x62) ∧
    (∃ t : State, execWords [encode (.stw 0x02 0x03), encode .tick] s = .next t ∧ t.status = 0x32) ∧
    (∃ t : State, execWords [encode .tick, encode (.stw 0x02 0x03)] s = .next t ∧ t.status = 0x32)

/-! ## Host procedures (45_host_procedures.md) -/

/-- R122: from power-on, the boot sequence of legal writes makes every segment hold the last value written to it, or 0, selects
the buffer, sets the rate and enables refresh, with nothing emitted and no fault. The order of steps 2 to 4 is the model's, one
of those R122 allows (assumption log 13). -/
def Obligations.BootSequenceEndsReadyToShow : Prop :=
  ∀ (n : Nat) (writes : List SegmentWrite) (b : BufferIndex) (r : BitVec 2),
    (∀ x ∈ writes, x.b.toNat < n ∧ x.v.toNat ≤ 9) → b.toNat < n →
    ∃ (ws : List Word) (t : State), bootSequence writes b r = ws.map .word ∧ execWords ws (State.powerOn n) = .next t ∧
      (∀ b' i, readSegment t b' i = ((writes.reverse.find? fun x => x.b == b' && x.i == i).map (·.v)).getD 0) ∧
      t.act = b ∧ t.cnt = 0 ∧ t.status = 0x40 ||| r.zeroExtend 8 ∧ t.latch = 0 ∧ t.frames = [] ∧ t.faults = []

/-- R96: the stream reset's 64 words make every segment of the buffer read 0, and change nothing else. Their order is the
model's (assumption log 13). -/
def Obligations.StreamResetClearsTheBuffer : Prop :=
  ∀ (s : State) (b : BufferIndex), b.toNat < s.numBuffers →
    ∃ (ws : List Word) (t : State), HostOperation.ops (.streamReset b) = ws.map .word ∧ ws.length = 64 ∧
      execWords ws s = .next t ∧ t = { s with seg := t.seg } ∧
      (∀ i, readSegment t b i = 0) ∧ ∀ b' i, b' ≠ b → readSegment t b' i = readSegment s b' i

/-- R95, 95_test_vectors.md E4: blanking a tube and writing digit d shows exactly digit d of that tube at the intensity written,
and leaves every other segment. The order of the ten blanking words is the model's (assumption log 13). -/
def Obligations.DigitWriteShowsExactlyTheDigit : Prop :=
  ∀ (s : State) (b : BufferIndex) (p : Fin 6) (d : Fin 10) (v : Byte), b.toNat < s.numBuffers → v.toNat ≤ 9 →
    ∃ t : State, execWords (writeDigit b p d v) s = .next t ∧ t = { s with seg := t.seg } ∧
      (∀ d' : Fin 10, readSegment t b (segmentOf (.digit p d')) = if d' = d then v else 0) ∧
      ∀ b' i, (b' ≠ b ∨ ∀ d' : Fin 10, i ≠ segmentOf (.digit p d')) → readSegment t b' i = readSegment s b' i

/-- R87: the crossfade starts with one atomic write of STATUS: STEP 0, DONE 0, ONE 1, EN 1, RATE kept; then the host waits. -/
def Obligations.CrossfadeStartsWithOneWrite : Prop :=
  ∀ (s : State) (a t : BufferIndex) (rest : List HostOp), s.hostRun = none → s.hostPending = .crossfade a t :: rest →
    issueHost s = .next { s with
      status := (s.status &&& 0x83) ||| 0x60
      hostPending := rest
      hostRun := some (.crossfade ⟨a, t, .poll⟩) }

/-- R89: after a completed cycle the host reads STATUS; with STEP below RATE the cycle is throttled, which increments STEP and
enables refresh; otherwise it steps; the end of a pass sets STEP to 0 and enables refresh. RATE and DONE are kept. -/
def Obligations.CrossfadeRateGating : Prop :=
  (∀ (s : State) (a t : BufferIndex), s.hostRun = some (.crossfade ⟨a, t, .readStatus⟩) →
    issueHost s = .next { s with
      responses := s.responses ++ [s.status]
      hostRun := some (.crossfade ⟨a, t,
        if (s.status.extractLsb' 2 2).toNat < (s.status.extractLsb' 0 2).toNat
        then .throttle (s.status.extractLsb' 2 2) else .readActive 0 false⟩) }) ∧
  (∀ (s : State) (a t : BufferIndex) (r : BitVec 2), s.hostRun = some (.crossfade ⟨a, t, .throttle r⟩) →
    ∃ w : Byte, issueHost s = .next { s with status := w, hostRun := some (.crossfade ⟨a, t, .poll⟩) } ∧
      w.extractLsb' 2 2 = r + 1 ∧ w.extractLsb' 0 2 = s.status.extractLsb' 0 2 ∧
      w.getLsbD 4 = s.status.getLsbD 4 ∧ w.getLsbD 5 = s.status.getLsbD 5 ∧ w.getLsbD 6 = true) ∧
  (∀ (s : State) (a t : BufferIndex) (activity : Bool), s.hostRun = some (.crossfade ⟨a, t, .finishPass activity⟩) →
    ∃ w : Byte, issueHost s = .next { s with
        status := w
        hostRun := some (.crossfade ⟨a, t, if activity then .poll else .leave⟩) } ∧
      w.extractLsb' 2 2 = 0 ∧ w.extractLsb' 0 2 = s.status.extractLsb' 0 2 ∧
      w.getLsbD 4 = s.status.getLsbD 4 ∧ w.getLsbD 5 = s.status.getLsbD 5 ∧ w.getLsbD 6 = true)

/-- R93 (which the spec marks as derived): from a state where the flags are as the procedure has them and no other part of the
host writes them, a step of any agent gives one: one-cycle mode throughout, refresh on exactly until the wrap while the host
waits, and off in a stepping pass. -/
def Obligations.StepKeepsTheCrossfadeDiscipline : Prop :=
  ∀ s t : State, s.CrossfadeDiscipline → step s = .next t → t.CrossfadeDiscipline

/-- R93: in a stepping pass no TICK reads the buffer or changes the display: it is a no-op. -/
def Obligations.NoTickRacesAStepPass : Prop :=
  ∀ (s : State) (c : Crossfade), s.CrossfadeDiscipline → s.hostRun = some (.crossfade c) → c.phase.quiet = true →
    issueTick s = .next { s with tickPending := s.tickPending - 1 }

/-- R88: whatever the free choices, a stepping pass comes to its end, no other part of the host issuing commands beside it;
every segment of the active buffer is then stepped by the per-segment rule, every other byte is as it was, nothing was
emitted, and the pass had activity exactly when a segment was stepped. -/
def Obligations.SteppingPassStepsEverySegment : Prop :=
  ∀ (pick : Nat → Agent) (s : State) (a t : BufferIndex), s.CrossfadeDiscipline →
    (∀ b i, (readSegment s b i).toNat ≤ 9) → s.otherPending = [] →
    a.toNat < s.numBuffers → t.toNat < s.numBuffers → s.hostRun = some (.crossfade ⟨a, t, .readActive 0 false⟩) →
    ∃ (k : Nat) (u : State) (activity : Bool), runWith pick k s = .next u ∧
      u.hostRun = some (.crossfade ⟨a, t, .finishPass activity⟩) ∧
      (∀ i : SegmentIndex, readSegment u a i =
        if readSegment s t i ≠ 0 ∧ (readSegment s a i).toNat < (readSegment s t i).toNat then readSegment s a i + 1
        else if readSegment s t i = 0 ∧ readSegment s a i ≠ 0 then readSegment s a i - 1
        else readSegment s a i) ∧
      (∀ b i, b ≠ a → readSegment u b i = readSegment s b i) ∧
      (activity = true ↔ ∃ i : SegmentIndex, readSegment u a i ≠ readSegment s a i) ∧
      u.frames = s.frames ∧ u.latch = s.latch ∧ u.status = s.status ∧ u.faults = s.faults

/-- R91 (which the spec marks as derived), segment by segment: after n stepping passes a segment has come n steps toward its
final value and no further; nine passes bring every intensity to the crossfade's result, from which no further pass steps it,
and a segment from 0 to 9 needs all nine (90_conflicts.md C3, C4). -/
def Obligations.NinePassesConverge : Prop :=
  (∀ (a0 t : Byte) (n : Nat),
    ((fun av : Byte => (segmentStep av t).getD av)^[n] a0).toNat =
      if t = 0 then a0.toNat - n
      else if a0.toNat < t.toNat then min (a0.toNat + n) t.toNat
      else a0.toNat) ∧
  (∀ (a0 t : Byte) (n : Nat), a0.toNat ≤ 9 → t.toNat ≤ 9 → 9 ≤ n →
    (fun av : Byte => (segmentStep av t).getD av)^[n] a0 = crossfadeResult a0 t ∧
    segmentStep (crossfadeResult a0 t) t = none) ∧
  (fun av : Byte => (segmentStep av 9).getD av)^[8] 0 ≠ crossfadeResult 0 9

/-- R90, R92 (R90 the spec marks as derived): whatever the free choices, when a crossfade of two existing buffers has returned,
no other part of the host having issued commands beside it,
segment i of the active buffer holds t[i] if t[i] is 0 or at least a0[i], and a0[i] otherwise; no other byte has changed; ONE is
0, EN 1, STEP 0 and RATE as before; ACT and FAULTS have not changed. -/
def Obligations.CrossfadeReturnsItsResult : Prop :=
  ∀ (pick : Nat → Agent) (k : Nat) (s u : State) (a t : BufferIndex), s.Legal → s.hostRun = none →
    s.hostPending = [.crossfade a t] → s.otherPending = [] → a.toNat < s.numBuffers → t.toNat < s.numBuffers →
    runWith pick k s = .next u → u.hostRun = none → u.hostPending = [] →
    (∀ i : SegmentIndex, readSegment u a i =
      if readSegment s t i = 0 ∨ (readSegment s a i).toNat ≤ (readSegment s t i).toNat then readSegment s t i
      else readSegment s a i) ∧
    (∀ b i, b ≠ a → readSegment u b i = readSegment s b i) ∧
    u.status.getLsbD 5 = false ∧ u.status.getLsbD 6 = true ∧
    u.status.extractLsb' 2 2 = 0 ∧ u.status.extractLsb' 0 2 = s.status.extractLsb' 0 2 ∧
    u.act = s.act ∧ u.faults = s.faults

/-- R126, U11: a host that waits for DONE (in a crossfade, or in a wait alone) with refresh off and DONE 0, while no word of
another part of the host sets EN or DONE, waits for ever: no number of steps of any agents takes it out of the wait; with no
other part issuing, none changes STATUS or SEG or emits a frame. And a wait of any kind is left only by a DTAKE that responds
0x01. The hosts' fields are the model's (assumption log 2, 10). -/
def Obligations.WaitWithRefreshOffNeverEnds : Prop :=
  (∀ (pick : Nat → Agent) (k : Nat) (s u : State) (p : Procedure), s.hostRun = some p → p.waits = true →
    s.status.getLsbD 6 = false → s.status.getLsbD 4 = false → (∀ w ∈ s.otherPending, wordSetsFlag w = false) →
    runWith pick k s = .next u →
    u.hostRun = some p ∧ u.status.getLsbD 6 = false ∧ u.status.getLsbD 4 = false ∧
    (s.otherPending = [] → u.status = s.status ∧ u.frames = s.frames ∧ u.seg = s.seg)) ∧
  (∀ (s t : State) (p : Procedure), s.hostRun = some p → p.waits = true → step s = .next t →
    t.hostRun = some p ∨ (s.status.getLsbD 4 = true ∧ t.responses = s.responses ++ [0x01]))

/-- R102: a host whose read faults gets no response and waits for ever: no number of steps of any agents takes it out of the
wait, and with no TICKs and no other part's words left the machine has no step. Where the host stands and the fault noCommand
are the model's (assumption log 1, 10). -/
def Obligations.FaultingReadHangsTheHost : Prop :=
  (∀ (s : State) (a t : BufferIndex) (i : SegmentIndex) (activity : Bool),
    s.hostRun = some (.crossfade ⟨a, t, .readActive i activity⟩) → s.numBuffers ≤ a.toNat →
    issueHost s = .next { s with
      faults := s.faults ++ [⟨.badBuffer, encode (.segr a i)⟩]
      hostRun := some (.crossfade ⟨a, t, .hung⟩) }) ∧
  (∀ (s : State) (a t : BufferIndex) (i : SegmentIndex) (activity : Bool) (av : Byte),
    s.hostRun = some (.crossfade ⟨a, t, .readTarget i activity av⟩) → s.numBuffers ≤ t.toNat →
    issueHost s = .next { s with
      faults := s.faults ++ [⟨.badBuffer, encode (.segr t i)⟩]
      hostRun := some (.crossfade ⟨a, t, .hung⟩) }) ∧
  (∀ (pick : Nat → Agent) (k : Nat) (s u : State) (c : Crossfade), s.hostRun = some (.crossfade c) → c.phase = .hung →
    runWith pick k s = .next u → u.hostRun = s.hostRun) ∧
  (∀ (s : State) (c : Crossfade), s.hostRun = some (.crossfade c) → c.phase = .hung → s.tickPending = 0 →
    s.otherPending = [] → step s = .fault .noCommand)

/-- R94, R126: a DDIS, an RST, or an STW that clears EN and does not set DONE, issued by another part of the host while the
host waits for DONE with DONE 0, completes, and the host then waits for ever unless a later word of that part sets EN or DONE:
whatever the free choices, no number of steps takes it out of the wait or turns refresh on. The hosts' fields are the model's
(assumption log 2, 10). -/
def Obligations.RefreshTurnedOffDuringAWaitHangsIt : Prop :=
  ∀ (s : State) (p : Procedure) (i : Instr) (rest : List Word), s.hostRun = some p → p.waits = true →
    s.status.getLsbD 4 = false → s.otherPending = encode i :: rest → (∀ w ∈ rest, wordSetsFlag w = false) →
    (i = .ddis ∨ i = .rst ∨ ∃ d m : BitVec 7, i = .stw d m ∧ m.getLsbD 6 = true ∧ d.getLsbD 6 = false ∧
      (m.getLsbD 4 && d.getLsbD 4) = false) →
    ∃ t : State, issueOther s = .next t ∧ t.hostRun = some p ∧ t.status.getLsbD 6 = false ∧
      ∀ (pick : Nat → Agent) (k : Nat) (u : State), runWith pick k t = .next u →
        u.hostRun = some p ∧ u.status.getLsbD 6 = false
end

