-- ==== Sys2Proof/Laws/Bits.lean ====
section
/-!
SUPPORT. The bits of STATUS after each update of it, the lanes of a frame, and the fields of a packed command word.
-/

namespace Sys2Proof.Machine

/-- A masked write, bit by bit (42_status_control.md R76). -/
@[simp] theorem getLsbD_maskedWrite (w m d : Byte) (j : Nat) :
    (maskedWrite w m d).getLsbD j = if m.getLsbD j then d.getLsbD j else w.getLsbD j := by
  unfold maskedWrite
  by_cases hj : j < 8
  · cases hm : m.getLsbD j <;> simp [hm, hj, -BitVec.getLsbD_eq_getElem]
  · simp [BitVec.getLsbD_of_ge _ _ (Nat.le_of_not_lt hj)]

@[simp] theorem getElem_maskedWrite (w m d : Byte) (j : Nat) (h : j < 8) :
    (maskedWrite w m d)[j] = if m[j] then d[j] else w[j] := by
  simpa [h] using getLsbD_maskedWrite w m d j

/-- An operand of STW keeps its seven bits, and bit 7 is 0 (30_encoding.md R49). -/
@[simp] theorem getLsbD_statusOperand (v : BitVec 7) (j : Nat) : (statusOperand v).getLsbD j = v.getLsbD j := by
  unfold statusOperand
  by_cases hj : j < 8
  · simp [hj, -BitVec.getLsbD_eq_getElem]
  · simp [hj, BitVec.getLsbD_of_ge v j (by omega)]

@[simp] theorem getElem_statusOperand (v : BitVec 7) (j : Nat) (h : j < 8) : (statusOperand v)[j] = v.getLsbD j := by
  simpa [h] using getLsbD_statusOperand v j

theorem maskDONE_bit (j : Nat) : maskDONE.getLsbD j = decide (j = 4) := by
  by_cases hj : j < 8
  · unfold maskDONE; interval_cases j <;> rfl
  · rw [BitVec.getLsbD_of_ge _ _ (by omega)]; simp; omega

theorem maskEN_bit (j : Nat) : maskEN.getLsbD j = decide (j = 6) := by
  by_cases hj : j < 8
  · unfold maskEN; interval_cases j <;> rfl
  · rw [BitVec.getLsbD_of_ge _ _ (by omega)]; simp; omega

@[simp] theorem getLsbD_setDONE (w : Byte) (j : Nat) : (setDONE w).getLsbD j = (decide (j = 4) || w.getLsbD j) := by
  simp only [setDONE, getLsbD_maskedWrite, maskDONE_bit]
  by_cases h : j = 4 <;> simp [h]

@[simp] theorem getElem_setDONE (w : Byte) (j : Nat) (h : j < 8) : (setDONE w)[j] = (decide (j = 4) || w[j]) := by
  simpa [h] using getLsbD_setDONE w j

@[simp] theorem getLsbD_clearDONE (w : Byte) (j : Nat) :
    (clearDONE w).getLsbD j = (!decide (j = 4) && w.getLsbD j) := by
  simp only [clearDONE, getLsbD_maskedWrite, maskDONE_bit]
  by_cases h : j = 4 <;> simp [h]

@[simp] theorem getElem_clearDONE (w : Byte) (j : Nat) (h : j < 8) :
    (clearDONE w)[j] = (!decide (j = 4) && w[j]) := by
  simpa [h] using getLsbD_clearDONE w j

@[simp] theorem getLsbD_clearEN (w : Byte) (j : Nat) : (clearEN w).getLsbD j = (!decide (j = 6) && w.getLsbD j) := by
  simp only [clearEN, getLsbD_maskedWrite, maskEN_bit]
  by_cases h : j = 6 <;> simp [h]

@[simp] theorem getElem_clearEN (w : Byte) (j : Nat) (h : j < 8) : (clearEN w)[j] = (!decide (j = 6) && w[j]) := by
  simpa [h] using getLsbD_clearEN w j

/-- The wrap sets DONE, clears EN when ONE is 1, and leaves every other bit (40_refresh.md R65). -/
@[simp] theorem getLsbD_statusAfterWrap (w : Byte) (j : Nat) :
    (statusAfterWrap w).getLsbD j =
      (decide (j = 4) || (w.getLsbD j && !(decide (j = 6) && w.getLsbD 5))) := by
  unfold statusAfterWrap statusONE
  cases h : w.getLsbD 5 with
  | false => simp
  | true => by_cases h4 : j = 4 <;> by_cases h6 : j = 6 <;> simp_all

@[simp] theorem getElem_statusAfterWrap (w : Byte) (j : Nat) (h : j < 8) :
    (statusAfterWrap w)[j] = (decide (j = 4) || (w[j] && !(decide (j = 6) && w[5]))) := by
  simpa [h] using getLsbD_statusAfterWrap w j

/-- The bits of a packed number: those of its lanes, below the bound. -/
theorem testBit_packLanes (lit : Nat → Bool) (n i : Nat) : (packLanes lit n).testBit i = (decide (i < n) && lit i) := by
  have hlt : ∀ n, packLanes lit n < 2 ^ n := by
    intro n
    induction n with
    | zero => simp [packLanes]
    | succ n ih => simp only [packLanes, pow_succ]; split <;> omega
  induction n with
  | zero => simp [packLanes]
  | succ n ih =>
    simp only [packLanes]
    cases hl : lit n with
    | false =>
      rcases lt_trichotomy i n with h | h | h
      · simp [ih, h, Nat.lt_succ_of_lt h]
      · subst h; simp [ih, hl]
      · simp [ih, Nat.not_lt.2 h.le]; omega
    | true =>
      rw [if_pos rfl, Nat.add_comm]
      rcases lt_trichotomy i n with h | h | h
      · rw [Nat.testBit_two_pow_add_gt h, ih]; simp [h, Nat.lt_succ_of_lt h]
      · subst h; rw [Nat.testBit_two_pow_add_eq, Nat.testBit_lt_two_pow (hlt i)]; simp [hl]
      · rw [Nat.testBit_lt_two_pow]
        · simp; omega
        · calc 2 ^ n + packLanes lit n < 2 ^ n + 2 ^ n := by have := hlt n; omega
            _ = 2 ^ (n + 1) := by rw [pow_succ]; omega
            _ ≤ 2 ^ i := Nat.pow_le_pow_right (by omega) h

/-- Bit i of a frame is lane i (20_memory.md R32). -/
theorem getLsbD_frameOfLanes (lit : Nat → Bool) (i : Nat) :
    (frameOfLanes lit).getLsbD i = (decide (i < 64) && lit i) := by
  unfold frameOfLanes Config.numSegments
  rw [BitVec.getLsbD_ofNat, testBit_packLanes]
  by_cases h : i < 64 <;> simp [h]

/-- Bit i of the frame TICK computes: the compare of segment i of the active buffer with CNT (40_refresh.md R62). -/
theorem getLsbD_activeFrame (s : State) (i : SegmentIndex) :
    (activeFrame s).getLsbD i.toNat = decide (s.cnt.toNat < (readSegment s s.act i).toNat) := by
  have := i.isLt
  simp [activeFrame, getLsbD_frameOfLanes, laneLit, this, -BitVec.getLsbD_eq_getElem]

/-- Two frames are equal when their 64 lanes are. -/
theorem frame_ext {F G : Frame} (h : ∀ i : SegmentIndex, F.getLsbD i.toNat = G.getLsbD i.toNat) : F = G := by
  refine BitVec.eq_of_getLsbD_eq fun i hi => ?_
  have := h (BitVec.ofNat 6 i)
  simpa [Nat.mod_eq_of_lt hi] using this

/-- A packed command word, bit by bit (30_encoding.md R45). -/
theorem getLsbD_packWord (op : BitVec 4) (b : BufferIndex) (s : SegmentIndex) (m d : Byte) (j : Nat) :
    (packWord op b s m d).getLsbD j =
      if j < 8 then d.getLsbD j
      else if j < 16 then m.getLsbD (j - 8)
      else if j < 22 then s.getLsbD (j - 16)
      else if j < 24 then false
      else if j < 26 then b.getLsbD (j - 24)
      else if j < 28 then false
      else op.getLsbD (j - 28) := by
  show BitVec.getLsbD (w := 4 + 2 + 2 + 2 + 6 + 8 + 8) (op ++ 0#2 ++ b ++ 0#2 ++ s ++ m ++ d) j = _
  simp only [BitVec.getLsbD_append]
  split_ifs <;> first | omega | simp_all [Nat.sub_sub]

/-- A field of a packed word is the vector that has its bits. -/
theorem extract_packWord (lo n : Nat) (op : BitVec 4) (b : BufferIndex) (s : SegmentIndex) (m d : Byte) (v : BitVec n)
    (h : ∀ i < n, (packWord op b s m d).getLsbD (lo + i) = v.getLsbD i) :
    (packWord op b s m d).extractLsb' lo n = v :=
  BitVec.eq_of_getLsbD_eq fun i hi => by
    rw [BitVec.getLsbD_extractLsb', h i hi]; simp [hi]

theorem fieldOP_packWord (op : BitVec 4) (b : BufferIndex) (s : SegmentIndex) (m d : Byte) :
    fieldOP (packWord op b s m d) = op :=
  extract_packWord _ _ _ _ _ _ _ _ fun i hi => by
    rw [getLsbD_packWord]; interval_cases i <;> rfl

theorem fieldB_packWord (op : BitVec 4) (b : BufferIndex) (s : SegmentIndex) (m d : Byte) :
    fieldB (packWord op b s m d) = b :=
  extract_packWord _ _ _ _ _ _ _ _ fun i hi => by
    rw [getLsbD_packWord]; interval_cases i <;> rfl

theorem fieldS_packWord (op : BitVec 4) (b : BufferIndex) (s : SegmentIndex) (m d : Byte) :
    fieldS (packWord op b s m d) = s :=
  extract_packWord _ _ _ _ _ _ _ _ fun i hi => by
    rw [getLsbD_packWord]; interval_cases i <;> rfl

theorem fieldM_packWord (op : BitVec 4) (b : BufferIndex) (s : SegmentIndex) (m d : Byte) :
    fieldM (packWord op b s m d) = m :=
  extract_packWord _ _ _ _ _ _ _ _ fun i hi => by
    rw [getLsbD_packWord]; interval_cases i <;> rfl

theorem fieldD_packWord (op : BitVec 4) (b : BufferIndex) (s : SegmentIndex) (m d : Byte) :
    fieldD (packWord op b s m d) = d :=
  extract_packWord _ _ _ _ _ _ _ _ fun i hi => by
    rw [getLsbD_packWord]; interval_cases i <;> rfl

/-- The reserved bits of a packed word are 0 (R48). -/
theorem reservedZero_packWord (op : BitVec 4) (b : BufferIndex) (s : SegmentIndex) (m d : Byte) :
    reservedZero (packWord op b s m d) = true := by
  have h1 : (packWord op b s m d).extractLsb' 26 2 = 0#2 :=
    extract_packWord _ _ _ _ _ _ _ _ fun i hi => by
      rw [getLsbD_packWord]; interval_cases i <;> rfl
  have h2 : (packWord op b s m d).extractLsb' 22 2 = 0#2 :=
    extract_packWord _ _ _ _ _ _ _ _ fun i hi => by
      rw [getLsbD_packWord]; interval_cases i <;> rfl
  simp [reservedZero, h1, h2]

/-- A word with its reserved bits 0 is packed from its fields (R45, R46). -/
theorem packWord_fields (w : Word) (h : reservedZero w = true) :
    packWord (fieldOP w) (fieldB w) (fieldS w) (fieldM w) (fieldD w) = w := by
  simp only [reservedZero, Bool.and_eq_true, beq_iff_eq] at h
  refine BitVec.eq_of_getLsbD_eq fun j hj => ?_
  have hr : ∀ lo k, w.extractLsb' lo 2 = 0#2 → k < 2 → w.getLsbD (lo + k) = false := fun lo k e hk => by
    have := congrArg (fun v => v.getLsbD k) e
    simpa [BitVec.getLsbD_extractLsb', hk, -BitVec.getLsbD_eq_getElem] using this
  rw [getLsbD_packWord]
  simp only [fieldOP, fieldB, fieldS, fieldM, fieldD, BitVec.getLsbD_extractLsb']
  split_ifs with h1 h2 h3 h4 h5 h6
  · simp [h1, -BitVec.getLsbD_eq_getElem]
  · rw [show 8 + (j - 8) = j by omega]; simp; omega
  · rw [show 16 + (j - 16) = j by omega]; simp; omega
  · have := hr 22 (j - 22) h.2 (by omega)
    rw [show 22 + (j - 22) = j by omega] at this
    exact this.symm
  · rw [show 24 + (j - 24) = j by omega]; simp; omega
  · have := hr 26 (j - 26) h.1 (by omega)
    rw [show 26 + (j - 26) = j by omega] at this
    exact this.symm
  · rw [show 28 + (j - 28) = j by omega]; simp; omega

end Sys2Proof.Machine
end

