-- ==== Sys2Proof/Laws/Memory.lean ====
section
/-!
SUPPORT. The laws of the segment memory: a read after a write, and that a write keeps the canonical form, in which equal
contents are equal lists.
-/

namespace Sys2Proof.Machine

@[simp] theorem Memory.read_nil (a : Nat) : Memory.read [] a = 0 := rfl

@[simp] theorem Memory.read_cons (k : Nat) (v : Byte) (m : Memory) (a : Nat) :
    Memory.read ((k, v) :: m) a = if a = k then v else Memory.read m a := rfl

theorem Memory.read_erase (m : Memory) (a a' : Nat) :
    Memory.read (Memory.erase m a) a' = if a' = a then 0 else Memory.read m a' := by
  induction m with
  | nil => simp [Memory.erase]
  | cons c m ih =>
    obtain ⟨k, x⟩ := c
    simp only [Memory.erase] at ih ⊢
    by_cases hk : k = a
    · by_cases ha : a' = k
      · simp_all
      · simp [hk, ih, show a' ≠ a from hk ▸ ha]
    · by_cases ha : a' = k
      · simp [ha, hk]
      · simp [hk, ha, ih]

theorem Memory.read_insert (m : Memory) (c : Host.Cell) (a' : Nat) (h : ∀ d ∈ m, d.1 ≠ c.1) :
    Memory.read (Memory.insert c m) a' = if a' = c.1 then c.2 else Memory.read m a' := by
  induction m with
  | nil => rfl
  | cons d m ih =>
    obtain ⟨k, x⟩ := d
    have hk : k ≠ c.1 := h (k, x) (by simp)
    simp only [Memory.insert]
    split
    · rfl
    · rw [Memory.read_cons, ih fun d hd => h d (by simp [hd])]
      by_cases ha : a' = k <;> simp [ha, hk]

theorem Memory.erase_key_ne (m : Memory) (a : Nat) : ∀ d ∈ Memory.erase m a, d.1 ≠ a := by
  simp [Memory.erase]

/-- A read after a write: the value written at its address, and what was there at every other. -/
theorem Memory.read_write (m : Memory) (a a' : Nat) (v : Byte) :
    Memory.read (Memory.write m a v) a' = if a' = a then v else Memory.read m a' := by
  unfold Memory.write
  split
  · next hv => rw [Memory.read_erase, hv]; rfl
  · rw [Memory.read_insert _ _ _ (Memory.erase_key_ne m a), Memory.read_erase]
    by_cases h : a' = a <;> simp [h]

@[simp] theorem Memory.read_write_same (m : Memory) (a : Nat) (v : Byte) :
    Memory.read (Memory.write m a v) a = v := by
  simp [Memory.read_write]

theorem Memory.read_write_other (m : Memory) {a a' : Nat} (v : Byte) (h : a' ≠ a) :
    Memory.read (Memory.write m a v) a' = Memory.read m a' := by
  simp [Memory.read_write, h]

theorem Memory.wf_iff (m : Memory) :
    Memory.wf m = true ↔ m.Pairwise (fun p q => p.1 < q.1) ∧ ∀ c ∈ m, c.2 ≠ 0 := by
  simp [Memory.wf, Memory.blank]

theorem Memory.mem_insert (c d : Host.Cell) (m : Memory) : d ∈ Memory.insert c m ↔ d = c ∨ d ∈ m := by
  induction m with
  | nil => simp [Memory.insert]
  | cons e m ih =>
    simp only [Memory.insert]
    split
    · simp
    · simp [ih]; tauto

theorem Memory.insert_sorted (c : Host.Cell) (m : Memory) (hm : m.Pairwise fun p q => p.1 < q.1)
    (hc : ∀ d ∈ m, d.1 ≠ c.1) : (Memory.insert c m).Pairwise fun p q => p.1 < q.1 := by
  induction m with
  | nil => simp [Memory.insert]
  | cons e m ih =>
    have he := List.pairwise_cons.1 hm
    simp only [Memory.insert]
    split
    · next h =>
      refine List.pairwise_cons.2 ⟨fun d hd => ?_, hm⟩
      rcases List.mem_cons.1 hd with rfl | hd
      · exact h
      · exact h.trans (he.1 d hd)
    · next h =>
      refine List.pairwise_cons.2 ⟨fun d hd => ?_, ih he.2 fun d hd => hc d (by simp [hd])⟩
      rcases (Memory.mem_insert c d m).1 hd with rfl | hd
      · have := hc e (by simp); omega
      · exact he.1 d hd

/-- What a written memory lists: the cell written, or cells it listed before. -/
theorem Memory.mem_write {m : Memory} {a : Nat} {v : Byte} {d : Host.Cell} (h : d ∈ Memory.write m a v) :
    d = (a, v) ∨ d ∈ m := by
  unfold Memory.write at h
  split at h
  · exact .inr (List.mem_filter.1 h).1
  · rcases (Memory.mem_insert _ _ _).1 h with h | h
    · exact .inl h
    · exact .inr (List.mem_filter.1 h).1

/-- The empty memory, the reset contents, is in canonical form. -/
@[simp] theorem Memory.wf_nil : Memory.wf [] = true := rfl

/-- A write keeps the canonical form. -/
theorem Memory.wf_write {m : Memory} (h : Memory.wf m = true) (a : Nat) (v : Byte) :
    Memory.wf (Memory.write m a v) = true := by
  obtain ⟨hs, hb⟩ := (Memory.wf_iff m).1 h
  have he : (Memory.erase m a).Pairwise fun p q => p.1 < q.1 := hs.filter _
  refine (Memory.wf_iff _).2 ⟨?_, fun c hc => ?_⟩
  · unfold Memory.write
    split
    · exact he
    · exact Memory.insert_sorted _ _ he (Memory.erase_key_ne m a)
  · unfold Memory.write at hc
    split at hc
    · exact hb c (List.mem_filter.1 hc).1
    · next hv =>
      rcases (Memory.mem_insert _ _ _).1 hc with rfl | hc
      · exact hv
      · exact hb c (List.mem_filter.1 hc).1

/-- A segment write and the block's reset, the two operations that change the memory, keep the canonical form. -/
theorem wf_writeSegment {s : State} (h : Memory.wf s.seg = true) (b : BufferIndex) (i : SegmentIndex) (v : Byte) :
    Memory.wf (writeSegment s b i v).seg = true :=
  Memory.wf_write h _ v

theorem wf_resetBlock (s : State) : Memory.wf (resetBlock s).seg = true := rfl

/-- Taking an entry out keeps the canonical form. -/
theorem Memory.wf_erase {m : Memory} (h : Memory.wf m = true) (a : Nat) : Memory.wf (Memory.erase m a) = true := by
  obtain ⟨hs, hb⟩ := (Memory.wf_iff m).1 h
  exact (Memory.wf_iff _).2 ⟨hs.filter _, fun c hc => hb c (List.mem_filter.1 hc).1⟩

theorem Memory.read_eq_zero_of_lt {m : Memory} {a : Nat} (h : ∀ c ∈ m, a < c.1) : Memory.read m a = 0 := by
  induction m with
  | nil => rfl
  | cons c m ih =>
    obtain ⟨k, x⟩ := c
    have hk := h (k, x) (by simp)
    rw [Memory.read_cons, if_neg (by omega), ih fun c hc => h c (by simp [hc])]

/-- A listed byte is what its address reads as, in a memory in canonical form. -/
theorem Memory.read_of_mem {m : Memory} (h : Memory.wf m = true) {c : Host.Cell} (hc : c ∈ m) :
    Memory.read m c.1 = c.2 := by
  obtain ⟨hs, -⟩ := (Memory.wf_iff m).1 h
  clear h
  induction m with
  | nil => simp at hc
  | cons d m ih =>
    obtain ⟨k, x⟩ := d
    have hd := List.pairwise_cons.1 hs
    rcases List.mem_cons.1 hc with rfl | hc
    · simp
    · have := hd.1 c hc
      rw [Memory.read_cons, if_neg (by simp at this; omega), ih hc hd.2]

/-- A byte that reads as something else than an unlisted one is listed. -/
theorem Memory.mem_of_read_ne {m : Memory} {a : Nat} (h : Memory.read m a ≠ 0) : (a, Memory.read m a) ∈ m := by
  induction m with
  | nil => simp at h
  | cons c m ih =>
    obtain ⟨k, x⟩ := c
    rw [Memory.read_cons] at h ⊢
    split
    · next e => simp [e]
    · next e => rw [if_neg e] at h; exact List.mem_cons_of_mem _ (ih h)

/-- Memories in canonical form with equal contents are equal lists. -/
theorem Memory.ext_of_wf {m n : Memory} (hm : Memory.wf m = true) (hn : Memory.wf n = true)
    (h : ∀ a, Memory.read m a = Memory.read n a) : m = n := by
  have hmem : ∀ {m n : Memory}, Memory.wf m = true → (∀ a, Memory.read m a = Memory.read n a) →
      ∀ c ∈ m, c ∈ n := by
    intro m n hm h c hc
    have hr := Memory.read_of_mem hm hc
    have hne := ((Memory.wf_iff m).1 hm).2 c hc
    have := Memory.mem_of_read_ne (m := n) (a := c.1) (by rw [← h, hr]; exact hne)
    rwa [← h, hr] at this
  have hsm := ((Memory.wf_iff m).1 hm).1
  have hsn := ((Memory.wf_iff n).1 hn).1
  have key : ∀ {m : Memory}, m.Pairwise (fun p q => p.1 < q.1) → m.Nodup := fun h =>
    h.imp (S := (· ≠ ·)) fun hlt e => by subst e; exact lt_irrefl _ hlt
  refine List.Perm.eq_of_pairwise (le := fun p q : Host.Cell => p.1 < q.1) ?_ hsm hsn ?_
  · intro p q _ _ h1 h2; omega
  · exact (List.perm_ext_iff_of_nodup (key hsm) (key hsn)).2 fun c =>
      ⟨hmem hm h c, hmem hn (fun a => (h a).symm) c⟩

/-- Keys of the segment space are one to one (20_memory.md R30). -/
theorem segKey_inj {b b' : BufferIndex} {i i' : SegmentIndex} (h : segKey b i = segKey b' i') : b = b' ∧ i = i' := by
  unfold segKey at h
  have := i.isLt
  have := i'.isLt
  exact ⟨BitVec.eq_of_toNat_eq (by omega), BitVec.eq_of_toNat_eq (by omega)⟩

@[simp] theorem segKey_eq_iff {b b' : BufferIndex} {i i' : SegmentIndex} :
    segKey b i = segKey b' i' ↔ b = b' ∧ i = i' :=
  ⟨segKey_inj, fun ⟨h, k⟩ => by rw [h, k]⟩

/-- Every key of an existing buffer is below 64 NUM_BUFFERS. -/
theorem segKey_lt {b : BufferIndex} {n : Nat} (h : b.toNat < n) (i : SegmentIndex) : segKey b i < 64 * n := by
  unfold segKey
  have := i.isLt
  omega

/-- What a segment reads as after a segment write. -/
theorem readSegment_writeSegment (s : State) (b b' : BufferIndex) (i i' : SegmentIndex) (v : Byte) :
    readSegment (writeSegment s b i v) b' i' = if b' = b ∧ i' = i then v else readSegment s b' i' := by
  unfold readSegment writeSegment
  rw [Memory.read_write]
  simp

end Sys2Proof.Machine
end

