-- ==== Sys2Proof/Laws/State.lean ====
section
/-!
SUPPORT. What each update of the state does to each field.
-/

namespace Sys2Proof.Machine

/-! A segment write changes SEG alone (41_segment_buffer.md R70). -/

@[simp] theorem writeSegment_numBuffers (b : BufferIndex) (i : SegmentIndex) (v : Byte) (s : State) : (writeSegment s b i v).numBuffers = s.numBuffers := rfl
@[simp] theorem writeSegment_seg (b : BufferIndex) (i : SegmentIndex) (v : Byte) (s : State) : (writeSegment s b i v).seg = Memory.write s.seg (segKey b i) v := rfl
@[simp] theorem writeSegment_act (b : BufferIndex) (i : SegmentIndex) (v : Byte) (s : State) : (writeSegment s b i v).act = s.act := rfl
@[simp] theorem writeSegment_cnt (b : BufferIndex) (i : SegmentIndex) (v : Byte) (s : State) : (writeSegment s b i v).cnt = s.cnt := rfl
@[simp] theorem writeSegment_status (b : BufferIndex) (i : SegmentIndex) (v : Byte) (s : State) : (writeSegment s b i v).status = s.status := rfl
@[simp] theorem writeSegment_latch (b : BufferIndex) (i : SegmentIndex) (v : Byte) (s : State) : (writeSegment s b i v).latch = s.latch := rfl
@[simp] theorem writeSegment_frames (b : BufferIndex) (i : SegmentIndex) (v : Byte) (s : State) : (writeSegment s b i v).frames = s.frames := rfl
@[simp] theorem writeSegment_faults (b : BufferIndex) (i : SegmentIndex) (v : Byte) (s : State) : (writeSegment s b i v).faults = s.faults := rfl
@[simp] theorem writeSegment_responses (b : BufferIndex) (i : SegmentIndex) (v : Byte) (s : State) : (writeSegment s b i v).responses = s.responses := rfl
@[simp] theorem writeSegment_tickPending (b : BufferIndex) (i : SegmentIndex) (v : Byte) (s : State) : (writeSegment s b i v).tickPending = s.tickPending := rfl
@[simp] theorem writeSegment_hostPending (b : BufferIndex) (i : SegmentIndex) (v : Byte) (s : State) : (writeSegment s b i v).hostPending = s.hostPending := rfl
@[simp] theorem writeSegment_hostRun (b : BufferIndex) (i : SegmentIndex) (v : Byte) (s : State) : (writeSegment s b i v).hostRun = s.hostRun := rfl
@[simp] theorem writeSegment_otherPending (b : BufferIndex) (i : SegmentIndex) (v : Byte) (s : State) : (writeSegment s b i v).otherPending = s.otherPending := rfl
@[simp] theorem writeSegment_draws (b : BufferIndex) (i : SegmentIndex) (v : Byte) (s : State) : (writeSegment s b i v).draws = s.draws := rfl

/-! Emitting a frame changes LATCH and FRAMES alone (10_state.md R21, R22). -/

@[simp] theorem emitFrame_numBuffers (F : Frame) (s : State) : (emitFrame F s).numBuffers = s.numBuffers := rfl
@[simp] theorem emitFrame_seg (F : Frame) (s : State) : (emitFrame F s).seg = s.seg := rfl
@[simp] theorem emitFrame_act (F : Frame) (s : State) : (emitFrame F s).act = s.act := rfl
@[simp] theorem emitFrame_cnt (F : Frame) (s : State) : (emitFrame F s).cnt = s.cnt := rfl
@[simp] theorem emitFrame_status (F : Frame) (s : State) : (emitFrame F s).status = s.status := rfl
@[simp] theorem emitFrame_latch (F : Frame) (s : State) : (emitFrame F s).latch = F := rfl
@[simp] theorem emitFrame_frames (F : Frame) (s : State) : (emitFrame F s).frames = s.frames ++ [F] := rfl
@[simp] theorem emitFrame_faults (F : Frame) (s : State) : (emitFrame F s).faults = s.faults := rfl
@[simp] theorem emitFrame_responses (F : Frame) (s : State) : (emitFrame F s).responses = s.responses := rfl
@[simp] theorem emitFrame_tickPending (F : Frame) (s : State) : (emitFrame F s).tickPending = s.tickPending := rfl
@[simp] theorem emitFrame_hostPending (F : Frame) (s : State) : (emitFrame F s).hostPending = s.hostPending := rfl
@[simp] theorem emitFrame_hostRun (F : Frame) (s : State) : (emitFrame F s).hostRun = s.hostRun := rfl
@[simp] theorem emitFrame_otherPending (F : Frame) (s : State) : (emitFrame F s).otherPending = s.otherPending := rfl
@[simp] theorem emitFrame_draws (F : Frame) (s : State) : (emitFrame F s).draws = s.draws := rfl

/-! A response is appended to the responses and changes nothing else (30_encoding.md R53). -/

@[simp] theorem respond_numBuffers (v : Byte) (s : State) : (respond v s).numBuffers = s.numBuffers := rfl
@[simp] theorem respond_seg (v : Byte) (s : State) : (respond v s).seg = s.seg := rfl
@[simp] theorem respond_act (v : Byte) (s : State) : (respond v s).act = s.act := rfl
@[simp] theorem respond_cnt (v : Byte) (s : State) : (respond v s).cnt = s.cnt := rfl
@[simp] theorem respond_status (v : Byte) (s : State) : (respond v s).status = s.status := rfl
@[simp] theorem respond_latch (v : Byte) (s : State) : (respond v s).latch = s.latch := rfl
@[simp] theorem respond_frames (v : Byte) (s : State) : (respond v s).frames = s.frames := rfl
@[simp] theorem respond_faults (v : Byte) (s : State) : (respond v s).faults = s.faults := rfl
@[simp] theorem respond_responses (v : Byte) (s : State) : (respond v s).responses = s.responses ++ [v] := rfl
@[simp] theorem respond_tickPending (v : Byte) (s : State) : (respond v s).tickPending = s.tickPending := rfl
@[simp] theorem respond_hostPending (v : Byte) (s : State) : (respond v s).hostPending = s.hostPending := rfl
@[simp] theorem respond_hostRun (v : Byte) (s : State) : (respond v s).hostRun = s.hostRun := rfl
@[simp] theorem respond_otherPending (v : Byte) (s : State) : (respond v s).otherPending = s.otherPending := rfl
@[simp] theorem respond_draws (v : Byte) (s : State) : (respond v s).draws = s.draws := rfl

/-! An illegal command changes FAULTS alone (60_exceptions.md R102). -/

@[simp] theorem raiseFault_numBuffers (code : FaultCode) (w : Word) (s : State) : (raiseFault code w s).numBuffers = s.numBuffers := rfl
@[simp] theorem raiseFault_seg (code : FaultCode) (w : Word) (s : State) : (raiseFault code w s).seg = s.seg := rfl
@[simp] theorem raiseFault_act (code : FaultCode) (w : Word) (s : State) : (raiseFault code w s).act = s.act := rfl
@[simp] theorem raiseFault_cnt (code : FaultCode) (w : Word) (s : State) : (raiseFault code w s).cnt = s.cnt := rfl
@[simp] theorem raiseFault_status (code : FaultCode) (w : Word) (s : State) : (raiseFault code w s).status = s.status := rfl
@[simp] theorem raiseFault_latch (code : FaultCode) (w : Word) (s : State) : (raiseFault code w s).latch = s.latch := rfl
@[simp] theorem raiseFault_frames (code : FaultCode) (w : Word) (s : State) : (raiseFault code w s).frames = s.frames := rfl
@[simp] theorem raiseFault_faults (code : FaultCode) (w : Word) (s : State) : (raiseFault code w s).faults = s.faults ++ [⟨code, w⟩] := rfl
@[simp] theorem raiseFault_responses (code : FaultCode) (w : Word) (s : State) : (raiseFault code w s).responses = s.responses := rfl
@[simp] theorem raiseFault_tickPending (code : FaultCode) (w : Word) (s : State) : (raiseFault code w s).tickPending = s.tickPending := rfl
@[simp] theorem raiseFault_hostPending (code : FaultCode) (w : Word) (s : State) : (raiseFault code w s).hostPending = s.hostPending := rfl
@[simp] theorem raiseFault_hostRun (code : FaultCode) (w : Word) (s : State) : (raiseFault code w s).hostRun = s.hostRun := rfl
@[simp] theorem raiseFault_otherPending (code : FaultCode) (w : Word) (s : State) : (raiseFault code w s).otherPending = s.otherPending := rfl
@[simp] theorem raiseFault_draws (code : FaultCode) (w : Word) (s : State) : (raiseFault code w s).draws = s.draws := rfl

/-! What reset_block() makes of each element (70_reset_and_hazards.md R121). -/

@[simp] theorem resetBlock_numBuffers (s : State) : (resetBlock s).numBuffers = s.numBuffers := rfl
@[simp] theorem resetBlock_seg (s : State) : (resetBlock s).seg = [] := rfl
@[simp] theorem resetBlock_act (s : State) : (resetBlock s).act = 0 := rfl
@[simp] theorem resetBlock_cnt (s : State) : (resetBlock s).cnt = 0 := rfl
@[simp] theorem resetBlock_status (s : State) : (resetBlock s).status = 0 := rfl
@[simp] theorem resetBlock_latch (s : State) : (resetBlock s).latch = 0 := rfl
@[simp] theorem resetBlock_frames (s : State) : (resetBlock s).frames = s.frames ++ [0] := rfl
@[simp] theorem resetBlock_faults (s : State) : (resetBlock s).faults = s.faults := rfl
@[simp] theorem resetBlock_responses (s : State) : (resetBlock s).responses = s.responses := rfl
@[simp] theorem resetBlock_tickPending (s : State) : (resetBlock s).tickPending = s.tickPending := rfl
@[simp] theorem resetBlock_hostPending (s : State) : (resetBlock s).hostPending = s.hostPending := rfl
@[simp] theorem resetBlock_hostRun (s : State) : (resetBlock s).hostRun = s.hostRun := rfl
@[simp] theorem resetBlock_otherPending (s : State) : (resetBlock s).otherPending = s.otherPending := rfl
@[simp] theorem resetBlock_draws (s : State) : (resetBlock s).draws = s.draws := rfl

/-! The agents' part of the state apart from the block's (10_state.md R26). -/

@[simp] theorem State.withAgents_numBuffers (g : AgentState) (s : State) : (s.withAgents g).numBuffers = s.numBuffers := rfl
@[simp] theorem State.withAgents_seg (g : AgentState) (s : State) : (s.withAgents g).seg = s.seg := rfl
@[simp] theorem State.withAgents_act (g : AgentState) (s : State) : (s.withAgents g).act = s.act := rfl
@[simp] theorem State.withAgents_cnt (g : AgentState) (s : State) : (s.withAgents g).cnt = s.cnt := rfl
@[simp] theorem State.withAgents_status (g : AgentState) (s : State) : (s.withAgents g).status = s.status := rfl
@[simp] theorem State.withAgents_latch (g : AgentState) (s : State) : (s.withAgents g).latch = s.latch := rfl
@[simp] theorem State.withAgents_frames (g : AgentState) (s : State) : (s.withAgents g).frames = s.frames := rfl
@[simp] theorem State.withAgents_faults (g : AgentState) (s : State) : (s.withAgents g).faults = s.faults := rfl
@[simp] theorem State.withAgents_responses (g : AgentState) (s : State) : (s.withAgents g).responses = s.responses := rfl
@[simp] theorem State.withAgents_tickPending (g : AgentState) (s : State) : (s.withAgents g).tickPending = g.tickPending := rfl
@[simp] theorem State.withAgents_hostPending (g : AgentState) (s : State) : (s.withAgents g).hostPending = g.hostPending := rfl
@[simp] theorem State.withAgents_hostRun (g : AgentState) (s : State) : (s.withAgents g).hostRun = g.hostRun := rfl
@[simp] theorem State.withAgents_otherPending (g : AgentState) (s : State) : (s.withAgents g).otherPending = g.otherPending := rfl
@[simp] theorem State.withAgents_draws (g : AgentState) (s : State) : (s.withAgents g).draws = g.draws := rfl

/-! Placing a command word changes the agents' part alone (00_scope.md R1). -/

@[simp] theorem State.withFetchWord_numBuffers (nbits w : Nat) (s : State) : (s.withFetchWord nbits w).numBuffers = s.numBuffers := rfl
@[simp] theorem State.withFetchWord_seg (nbits w : Nat) (s : State) : (s.withFetchWord nbits w).seg = s.seg := rfl
@[simp] theorem State.withFetchWord_act (nbits w : Nat) (s : State) : (s.withFetchWord nbits w).act = s.act := rfl
@[simp] theorem State.withFetchWord_cnt (nbits w : Nat) (s : State) : (s.withFetchWord nbits w).cnt = s.cnt := rfl
@[simp] theorem State.withFetchWord_status (nbits w : Nat) (s : State) : (s.withFetchWord nbits w).status = s.status := rfl
@[simp] theorem State.withFetchWord_latch (nbits w : Nat) (s : State) : (s.withFetchWord nbits w).latch = s.latch := rfl
@[simp] theorem State.withFetchWord_frames (nbits w : Nat) (s : State) : (s.withFetchWord nbits w).frames = s.frames := rfl
@[simp] theorem State.withFetchWord_faults (nbits w : Nat) (s : State) : (s.withFetchWord nbits w).faults = s.faults := rfl
@[simp] theorem State.withFetchWord_responses (nbits w : Nat) (s : State) : (s.withFetchWord nbits w).responses = s.responses := rfl
@[simp] theorem State.withFetchWord_tickPending (nbits w : Nat) (s : State) : (s.withFetchWord nbits w).tickPending = 0 := rfl
@[simp] theorem State.withFetchWord_hostPending (nbits w : Nat) (s : State) : (s.withFetchWord nbits w).hostPending = .word (BitVec.ofNat 32 (w % 2 ^ nbits)) :: s.hostPending := rfl
@[simp] theorem State.withFetchWord_hostRun (nbits w : Nat) (s : State) : (s.withFetchWord nbits w).hostRun = none := rfl
@[simp] theorem State.withFetchWord_otherPending (nbits w : Nat) (s : State) : (s.withFetchWord nbits w).otherPending = [] := rfl
@[simp] theorem State.withFetchWord_draws (nbits w : Nat) (s : State) : (s.withFetchWord nbits w).draws = s.draws := rfl

/-! The counter's advance changes CNT and STATUS alone (40_refresh.md R65, R66). -/

@[simp] theorem advanceCounter_numBuffers (s : State) : (advanceCounter s).numBuffers = s.numBuffers := by
  unfold advanceCounter; split <;> rfl
@[simp] theorem advanceCounter_seg (s : State) : (advanceCounter s).seg = s.seg := by
  unfold advanceCounter; split <;> rfl
@[simp] theorem advanceCounter_act (s : State) : (advanceCounter s).act = s.act := by
  unfold advanceCounter; split <;> rfl
@[simp] theorem advanceCounter_latch (s : State) : (advanceCounter s).latch = s.latch := by
  unfold advanceCounter; split <;> rfl
@[simp] theorem advanceCounter_frames (s : State) : (advanceCounter s).frames = s.frames := by
  unfold advanceCounter; split <;> rfl
@[simp] theorem advanceCounter_faults (s : State) : (advanceCounter s).faults = s.faults := by
  unfold advanceCounter; split <;> rfl
@[simp] theorem advanceCounter_responses (s : State) : (advanceCounter s).responses = s.responses := by
  unfold advanceCounter; split <;> rfl
@[simp] theorem advanceCounter_tickPending (s : State) : (advanceCounter s).tickPending = s.tickPending := by
  unfold advanceCounter; split <;> rfl
@[simp] theorem advanceCounter_hostPending (s : State) : (advanceCounter s).hostPending = s.hostPending := by
  unfold advanceCounter; split <;> rfl
@[simp] theorem advanceCounter_hostRun (s : State) : (advanceCounter s).hostRun = s.hostRun := by
  unfold advanceCounter; split <;> rfl
@[simp] theorem advanceCounter_otherPending (s : State) : (advanceCounter s).otherPending = s.otherPending := by
  unfold advanceCounter; split <;> rfl
@[simp] theorem advanceCounter_draws (s : State) : (advanceCounter s).draws = s.draws := by
  unfold advanceCounter; split <;> rfl

/-! Power-on reset of each element (70_reset_and_hazards.md R120). -/

@[simp] theorem State.powerOn_numBuffers (n : Nat) : (State.powerOn n).numBuffers = n := rfl
@[simp] theorem State.powerOn_seg (n : Nat) : (State.powerOn n).seg = [] := rfl
@[simp] theorem State.powerOn_act (n : Nat) : (State.powerOn n).act = 0 := rfl
@[simp] theorem State.powerOn_cnt (n : Nat) : (State.powerOn n).cnt = 0 := rfl
@[simp] theorem State.powerOn_status (n : Nat) : (State.powerOn n).status = 0 := rfl
@[simp] theorem State.powerOn_latch (n : Nat) : (State.powerOn n).latch = 0 := rfl
@[simp] theorem State.powerOn_frames (n : Nat) : (State.powerOn n).frames = [] := rfl
@[simp] theorem State.powerOn_faults (n : Nat) : (State.powerOn n).faults = [] := rfl
@[simp] theorem State.powerOn_responses (n : Nat) : (State.powerOn n).responses = [] := rfl
@[simp] theorem State.powerOn_tickPending (n : Nat) : (State.powerOn n).tickPending = 0 := rfl
@[simp] theorem State.powerOn_hostPending (n : Nat) : (State.powerOn n).hostPending = [] := rfl
@[simp] theorem State.powerOn_hostRun (n : Nat) : (State.powerOn n).hostRun = none := rfl
@[simp] theorem State.powerOn_otherPending (n : Nat) : (State.powerOn n).otherPending = [] := rfl
@[simp] theorem State.powerOn_draws (n : Nat) : (State.powerOn n).draws = 0 := rfl

/-- The agents put back are the agents that were there. -/
@[simp] theorem State.withAgents_self (s : State) : s.withAgents s.agents = s := rfl

@[simp] theorem State.withAgents_withAgents (s : State) (g h : AgentState) :
    (s.withAgents g).withAgents h = s.withAgents h := rfl

@[simp] theorem State.agents_withAgents (s : State) (g : AgentState) : (s.withAgents g).agents = g := rfl

@[simp] theorem State.observation_withAgents (s : State) (g : AgentState) :
    (s.withAgents g).observation = s.observation := rfl

end Sys2Proof.Machine
end

