-- ==== Sys2Proof/Laws/Exec.lean ====
section
/-!
SUPPORT. What each shared operation and each meaning can do, said once: the counter's advance, TICK, the commands, a command
word, the agents' part apart from the block's, and one step.
-/

namespace Sys2Proof.Machine

/-- The two advances of the counter (40_refresh.md R65). -/
theorem advanceCounter_cases (s : State) :
    (s.cnt.toNat + 1 = 9 ∧ advanceCounter s = { s with cnt := 0, status := statusAfterWrap s.status }) ∨
    (s.cnt.toNat + 1 ≠ 9 ∧ advanceCounter s = { s with cnt := s.cnt + 1 }) := by
  unfold advanceCounter Config.sweepLen Config.maxIntensity
  split
  · next h => exact .inl ⟨h, rfl⟩
  · next h => exact .inr ⟨h, rfl⟩

theorem refreshDefined_iff (s : State) : refreshDefined s = true ↔ s.act.toNat < s.numBuffers ∧ s.cnt.toNat < 9 := by
  unfold refreshDefined bufferAbsent Config.sweepLen Config.maxIntensity
  rw [Bool.and_eq_true, Bool.not_eq_true', decide_eq_false_iff_not, decide_eq_true_iff, Nat.not_le]

/-- A legal state is one the refresh is defined in. -/
theorem State.Legal.refreshDefined {s : State} (h : s.Legal) : refreshDefined s = true :=
  (refreshDefined_iff s).2 ⟨h.2.2.2.1, Nat.lt_succ_of_le h.2.2.2.2.1⟩

theorem State.Legal.act_lt {s : State} (h : s.Legal) : s.act.toNat < s.numBuffers := h.2.2.2.1

theorem State.Legal.cnt_le {s : State} (h : s.Legal) : s.cnt.toNat ≤ 8 := h.2.2.2.2.1

/-- Legality is a matter of the block's part of the state alone. -/
theorem State.Legal.withAgents {s : State} (h : s.Legal) (g : AgentState) : (s.withAgents g).Legal := h

theorem execTick_disabled {s : State} (h : statusEN s.status = false) : execTick s = .next s := by
  simp [execTick, h]

theorem execTick_enabled {s : State} (h : statusEN s.status = true) (hd : refreshDefined s = true) :
    execTick s = .next (advanceCounter (emitFrame (activeFrame s) s)) := by
  simp [execTick, h, hd]

/-- What a TICK with a next state did: nothing (R61), or a frame and the counter's advance (R60). -/
theorem execTick_cases {s t : State} (h : execTick s = .next t) :
    (statusEN s.status = false ∧ t = s) ∨
    (statusEN s.status = true ∧ refreshDefined s = true ∧ t = advanceCounter (emitFrame (activeFrame s) s)) := by
  unfold execTick at h
  split at h
  · next he =>
    split at h
    · next hd => exact .inr ⟨he, hd, by injection h with h; exact h.symm⟩
    · cases h
  · next he => exact .inl ⟨by simpa using he, by injection h with h; exact h.symm⟩

/-- What a SEGW did: an absent buffer, an illegal value, or the write (R70, R103). -/
theorem execSegw_cases (b : BufferIndex) (i : SegmentIndex) (d : Byte) (s : State) :
    (s.numBuffers ≤ b.toNat ∧ execSegw b i d s = .next (raiseFault .badBuffer (encode (.segw b i d)) s)) ∨
    (b.toNat < s.numBuffers ∧ 9 < d.toNat ∧
      execSegw b i d s = .next (raiseFault .badValue (encode (.segw b i d)) s)) ∨
    (b.toNat < s.numBuffers ∧ d.toNat ≤ 9 ∧ execSegw b i d s = .next (writeSegment s b i d)) := by
  unfold execSegw bufferAbsent intensityIllegal Config.maxIntensity
  by_cases hb : s.numBuffers ≤ b.toNat
  · exact .inl ⟨hb, by simp [hb]⟩
  · by_cases hd : 9 < d.toNat
    · exact .inr (.inl ⟨by omega, hd, by simp [hb, hd]⟩)
    · exact .inr (.inr ⟨by omega, by omega, by simp [hb, hd]⟩)

/-- What a SEGR did: an absent buffer, or the response (R71). -/
theorem execSegr_cases (b : BufferIndex) (i : SegmentIndex) (s : State) :
    (s.numBuffers ≤ b.toNat ∧ execSegr b i s = .next (raiseFault .badBuffer (encode (.segr b i)) s)) ∨
    (b.toNat < s.numBuffers ∧ execSegr b i s = .next (respond (readSegment s b i) s)) := by
  unfold execSegr bufferAbsent
  by_cases hb : s.numBuffers ≤ b.toNat
  · exact .inl ⟨hb, by simp [hb]⟩
  · exact .inr ⟨by omega, by simp [hb]⟩

/-- What a SEL did: an absent buffer, or the selection (R72). -/
theorem execSel_cases (b : BufferIndex) (s : State) :
    (s.numBuffers ≤ b.toNat ∧ execSel b s = .next (raiseFault .badBuffer (encode (.sel b)) s)) ∨
    (b.toNat < s.numBuffers ∧ execSel b s = .next { s with act := b }) := by
  unfold execSel bufferAbsent
  by_cases hb : s.numBuffers ≤ b.toNat
  · exact .inl ⟨hb, by simp [hb]⟩
  · exact .inr ⟨by omega, by simp [hb]⟩

/-- A word that decodes has its command's meaning. -/
theorem execWord_ok {w : Word} {i : Instr} (h : decode w = .ok i) (s : State) : execWord w s = exec i s := by
  simp [execWord, h]

/-- A word that does not decode is recorded and ignored (60_exceptions.md R102). -/
theorem execWord_error {w : Word} {c : FaultCode} (h : decode w = .error c) (s : State) :
    execWord w s = .next (raiseFault c w s) := by
  simp [execWord, h]

@[simp] theorem decode_encode_tick : decode (encode .tick) = .ok .tick := by rfl

/-- The TICK word has TICK's meaning. -/
@[simp] theorem execWord_tick (s : State) : execWord (encode .tick) s = execTick s :=
  execWord_ok decode_encode_tick s

@[simp] theorem execWords_nil (s : State) : execWords [] s = .next s := rfl

theorem execWords_cons {w : Word} {ws : List Word} {s t : State} (h : execWord w s = .next t) :
    execWords (w :: ws) s = execWords ws t := by
  simp [execWords, h]

/-- A run of words with a next state ran its first word to a next state. -/
theorem execWords_cons_inv {w : Word} {ws : List Word} {s u : State} (h : execWords (w :: ws) s = .next u) :
    ∃ t, execWord w s = .next t ∧ execWords ws t = .next u := by
  simp only [execWords] at h
  split at h
  · next t ht => exact ⟨t, ht, h⟩
  · cases h
  · cases h

/-- The words of two lists, one list after the other. -/
theorem execWords_append {ws vs : List Word} {s t : State} (h : execWords ws s = .next t) :
    execWords (ws ++ vs) s = execWords vs t := by
  induction ws generalizing s with
  | nil => injection h with h; rw [h]; rfl
  | cons w ws ih =>
    obtain ⟨u, hu, hr⟩ := execWords_cons_inv h
    rw [List.cons_append, execWords_cons hu, ih hr]

@[simp] theorem readSegment_withAgents (s : State) (g : AgentState) (b : BufferIndex) (i : SegmentIndex) :
    readSegment (s.withAgents g) b i = readSegment s b i := rfl

theorem advanceCounter_withAgents (s : State) (g : AgentState) :
    advanceCounter (s.withAgents g) = (advanceCounter s).withAgents g := by
  rcases advanceCounter_cases s with ⟨h, e⟩ | ⟨h, e⟩ <;>
    rcases advanceCounter_cases (s.withAgents g) with ⟨h', e'⟩ | ⟨h', e'⟩ <;>
    first | exact absurd h' h | exact absurd h h' | (rw [e, e']; rfl)

theorem execTick_withAgents (s : State) (g : AgentState) :
    execTick (s.withAgents g) = mapNext (fun t => t.withAgents g) (execTick s) := by
  unfold execTick
  rw [show refreshDefined (s.withAgents g) = refreshDefined s from rfl,
    show emitFrame (activeFrame (s.withAgents g)) (s.withAgents g) = (emitFrame (activeFrame s) s).withAgents g from rfl,
    advanceCounter_withAgents, State.withAgents_status]
  split_ifs <;> rfl

/-- No command reads or writes the agents' part of the state (10_state.md R26). -/
theorem exec_withAgents (i : Instr) (s : State) (g : AgentState) :
    exec i (s.withAgents g) = mapNext (fun t => t.withAgents g) (exec i s) := by
  cases i with
  | tick => exact execTick_withAgents s g
  | segw b j d =>
    rcases execSegw_cases b j d s with ⟨h, e⟩ | ⟨h, hd, e⟩ | ⟨h, hd, e⟩ <;>
      rcases execSegw_cases b j d (s.withAgents g) with ⟨h', e'⟩ | ⟨h', hd', e'⟩ | ⟨h', hd', e'⟩ <;>
      first | (simp at h'; omega) | (rw [exec, exec, e, e']; rfl)
  | segr b j =>
    rcases execSegr_cases b j s with ⟨h, e⟩ | ⟨h, e⟩ <;>
      rcases execSegr_cases b j (s.withAgents g) with ⟨h', e'⟩ | ⟨h', e'⟩ <;>
      first | (simp at h'; omega) | (rw [exec, exec, e, e']; rfl)
  | sel b =>
    rcases execSel_cases b s with ⟨h, e⟩ | ⟨h, e⟩ <;>
      rcases execSel_cases b (s.withAgents g) with ⟨h', e'⟩ | ⟨h', e'⟩ <;>
      first | (simp at h'; omega) | (rw [exec, exec, e, e']; rfl)
  | str => rfl
  | stw d m => rfl
  | dtake => rfl
  | ddis => rfl
  | rst => rfl

theorem execWord_withAgents (w : Word) (s : State) (g : AgentState) :
    execWord w (s.withAgents g) = mapNext (fun t => t.withAgents g) (execWord w s) := by
  unfold execWord
  cases decode w with
  | ok i => exact exec_withAgents i s g
  | error c => rfl

/-- A command word leaves the agents' part as it was. -/
theorem execWord_agents {w : Word} {s t : State} (h : execWord w s = .next t) : t.agents = s.agents := by
  have := execWord_withAgents w s s.agents
  rw [State.withAgents_self, h, mapNext] at this
  injection this with this
  rw [this, State.agents_withAgents]

theorem execWords_withAgents (ws : List Word) (s : State) (g : AgentState) :
    execWords ws (s.withAgents g) = mapNext (fun t => t.withAgents g) (execWords ws s) := by
  induction ws generalizing s with
  | nil => rfl
  | cons w ws ih =>
    simp only [execWords, execWord_withAgents]
    cases execWord w s with
    | next t => exact ih t
    | fault r => rfl
    | refused r => rfl

theorem mapNext_eq_next {f : State → State} {o : Host.Outcome State Fault Refusal} {t : State}
    (h : mapNext f o = .next t) : ∃ u, o = .next u ∧ t = f u := by
  cases o with
  | next u => injection h with h; exact ⟨u, rfl, h.symm⟩
  | fault r => cases h
  | refused r => cases h

/-- A command word executed in a state with other agents is the word executed in the state, with those agents. -/
theorem execWord_withAgents_inv {w : Word} {s u : State} {g : AgentState} (h : execWord w (s.withAgents g) = .next u) :
    ∃ v, execWord w s = .next v ∧ u = v.withAgents g ∧ v.agents = s.agents := by
  rw [execWord_withAgents] at h
  obtain ⟨v, hv, e⟩ := mapNext_eq_next h
  exact ⟨v, hv, e, execWord_agents hv⟩

/-- An agent listed as ready is ready. -/
theorem mem_readyAgents {s : State} {a : Agent} : a ∈ readyAgents s ↔ agentReady s a = true := by
  cases a <;> simp [readyAgents]

/-- What the arbitration answers: a ready agent, and the state with the draw counted or not; nothing, if no agent is ready. -/
theorem arbitrate_cases (pick : Nat → Agent) (s : State) :
    (arbitrate pick s = none ∧ ∀ a, agentReady s a = false) ∨
    ∃ a n, arbitrate pick s = some (a, { s with draws := n }) ∧ agentReady s a = true ∧
      (n = s.draws ∨ n = s.draws + 1) := by
  unfold arbitrate
  have hm := fun a => mem_readyAgents (s := s) (a := a)
  cases hr : readyAgents s with
  | nil =>
    refine .inl ⟨rfl, fun a => ?_⟩
    have := (hm a).not
    rw [hr] at this
    simpa using this
  | cons a l =>
    have ha : agentReady s a = true := (hm a).1 (by rw [hr]; simp)
    cases l with
    | nil => exact .inr ⟨a, s.draws, rfl, ha, .inl rfl⟩
    | cons b l =>
      refine .inr ⟨_, s.draws + 1, rfl, ?_, .inr rfl⟩
      split
      · next h => exact h
      · exact ha

/-- What one step did: the next command of a ready agent, in the state with the draw counted where the choice was free
(20_memory.md R38, 60_exceptions.md R104). -/
theorem stepWith_cases {pick : Nat → Agent} {s t : State} (h : stepWith pick s = .next t) :
    ∃ a n, agentReady s a = true ∧ (n = s.draws ∨ n = s.draws + 1) ∧ issueAs a { s with draws := n } = .next t := by
  unfold stepWith at h
  rcases arbitrate_cases pick s with ⟨e, -⟩ | ⟨a, n, e, ha, hn⟩ <;> rw [e] at h
  · cases h
  · exact ⟨a, n, ha, hn, h⟩

/-- What the tick agent did: a TICK, with one TICK fewer to issue. -/
theorem issueTick_eq (s : State) : issueTick s = execTick { s with tickPending := s.tickPending - 1 } :=
  execWord_tick _

/-- What another part of the host did: the next of its words. -/
theorem issueOther_cases {s t : State} (h : issueOther s = .next t) :
    ∃ w rest, s.otherPending = w :: rest ∧ execWord w { s with otherPending := rest } = .next t := by
  unfold issueOther at h
  split at h
  · cases h
  · next w rest e => exact ⟨w, rest, e, h⟩

/-- What a procedure's command with a next state did, and where the host then stands. -/
theorem resumeHost_eq_next {p : Procedure} {s t : State} {o : Host.Outcome State Fault Refusal}
    (h : resumeHost p s o = .next t) :
    ∃ u, o = .next u ∧ t = { u with hostRun := p.resume (newResponse s u) } := by
  cases o with
  | next u => injection h with h; exact ⟨u, rfl, h.symm⟩
  | fault r => cases h
  | refused r => cases h

/-- What the host did: the next command of its procedure, the next word of its script, the start of a crossfade, or the first
DTAKE of a wait. -/
theorem issueHost_cases {s t : State} (h : issueHost s = .next t) :
    (∃ p i u, s.hostRun = some p ∧ p.command = some i ∧ execWord (encode i) s = .next u ∧
      t = { u with hostRun := p.resume (newResponse s u) }) ∨
    (∃ w rest, s.hostRun = none ∧ s.hostPending = .word w :: rest ∧
      execWord w { s with hostPending := rest } = .next t) ∨
    (∃ a b rest, s.hostRun = none ∧ s.hostPending = .crossfade a b :: rest ∧
      execWord (encode crossfadeStart) { s with hostPending := rest, hostRun := some (.crossfade ⟨a, b, .poll⟩) } =
        .next t) ∨
    (∃ rest u, s.hostRun = none ∧ s.hostPending = .awaitDone :: rest ∧
      execWord (encode .dtake) { s with hostPending := rest } = .next u ∧
      t = { u with hostRun := Procedure.awaitDone.resume (newResponse s u) }) := by
  unfold issueHost at h
  split at h
  · next p hp =>
    split at h
    · next i hi =>
      obtain ⟨u, hu, e⟩ := resumeHost_eq_next h
      exact .inl ⟨p, i, u, hp, hi, hu, e⟩
    · cases h
  · next hn =>
    split at h
    · cases h
    · next w rest hp => exact .inr (.inl ⟨w, rest, hn, hp, h⟩)
    · next a b rest hp => exact .inr (.inr (.inl ⟨a, b, rest, hn, hp, h⟩))
    · next rest hp =>
      obtain ⟨u, hu, e⟩ := resumeHost_eq_next h
      exact .inr (.inr (.inr ⟨rest, u, hn, hp, hu, e⟩))

/-- A command word executed in the state with other agents: the word executed in the state, and then some agents. -/
theorem execWord_of_withAgents {w : Word} {s u : State} (g : AgentState) (h : execWord w (s.withAgents g) = .next u) :
    ∃ v, execWord w s = .next v ∧ u = v.withAgents g := by
  obtain ⟨v, hv, e, -⟩ := execWord_withAgents_inv h
  exact ⟨v, hv, e⟩

/-- What a step did to the block: it executed one command word, and the agents' part alone changed besides (00_scope.md R1,
20_memory.md R38). -/
theorem stepWith_word {pick : Nat → Agent} {s t : State} (h : stepWith pick s = .next t) :
    ∃ w v, execWord w s = .next v ∧ t = v.withAgents t.agents := by
  obtain ⟨a, n, -, -, ha⟩ := stepWith_cases h
  have of : ∀ {w : Word} {u : State} (g : AgentState), execWord w (s.withAgents g) = .next u →
      ∃ w v, execWord w s = .next v ∧ u = v.withAgents u.agents := fun g hu => by
    obtain ⟨v, hv, e⟩ := execWord_of_withAgents g hu
    exact ⟨_, v, hv, by rw [e]; rfl⟩
  cases a with
  | tickAgent => exact of (w := encode .tick) ⟨s.tickPending - 1, s.hostPending, s.hostRun, s.otherPending, n⟩ ha
  | otherHost =>
    obtain ⟨w, rest, -, hw⟩ := issueOther_cases ha
    exact of ⟨s.tickPending, s.hostPending, s.hostRun, rest, n⟩ hw
  | host =>
    rcases issueHost_cases ha with ⟨p, i, u, -, -, hu, e⟩ | ⟨w, rest, -, -, hw⟩ | ⟨x, y, rest, -, -, hw⟩ |
      ⟨rest, u, -, -, hu, e⟩
    · obtain ⟨w, v, hv, e'⟩ := of ⟨s.tickPending, s.hostPending, s.hostRun, s.otherPending, n⟩ hu
      exact ⟨w, v, hv, by rw [e, e']; rfl⟩
    · exact of ⟨s.tickPending, rest, s.hostRun, s.otherPending, n⟩ hw
    · exact of ⟨s.tickPending, rest, some (.crossfade ⟨x, y, .poll⟩), s.otherPending, n⟩ hw
    · obtain ⟨w, v, hv, e'⟩ := of ⟨s.tickPending, rest, s.hostRun, s.otherPending, n⟩ hu
      exact ⟨w, v, hv, by rw [e, e']; rfl⟩

end Sys2Proof.Machine
end

