-- ==== Sys2Proof/Laws/PerInstr.lean ====
section
/-!
SUPPORT. Facts about every command as syntax, one lemma a constructor.
-/

open Sys2Proof.Machine

namespace Sys2Proof.Laws.EncodedOpcode

/-- The number R47's table gives a command. -/
def opcode : Instr → BitVec 4
  | .tick => 0x1
  | .segw _ _ _ => 0x2
  | .segr _ _ => 0x3
  | .sel _ => 0x4
  | .str => 0x5
  | .stw _ _ => 0x6
  | .dtake => 0x7
  | .ddis => 0x8
  | .rst => 0x9

/-- A command's word has its opcode in OP and 0 in the reserved bits (30_encoding.md R47, R48). -/
def Statement (i : Instr) : Prop := fieldOP (encode i) = opcode i ∧ reservedZero (encode i) = true

theorem tick : Statement .tick :=
  ⟨by simp [encode, opcode, fieldOP_packWord], by simp [encode, reservedZero_packWord]⟩

theorem segw (b : BufferIndex) (i : SegmentIndex) (d : Byte) : Statement (.segw b i d) :=
  ⟨by simp [encode, opcode, fieldOP_packWord], by simp [encode, reservedZero_packWord]⟩

theorem segr (b : BufferIndex) (i : SegmentIndex) : Statement (.segr b i) :=
  ⟨by simp [encode, opcode, fieldOP_packWord], by simp [encode, reservedZero_packWord]⟩

theorem sel (b : BufferIndex) : Statement (.sel b) :=
  ⟨by simp [encode, opcode, fieldOP_packWord], by simp [encode, reservedZero_packWord]⟩

theorem str : Statement .str :=
  ⟨by simp [encode, opcode, fieldOP_packWord], by simp [encode, reservedZero_packWord]⟩

theorem stw (d m : BitVec 7) : Statement (.stw d m) :=
  ⟨by simp [encode, opcode, fieldOP_packWord], by simp [encode, reservedZero_packWord]⟩

theorem dtake : Statement .dtake :=
  ⟨by simp [encode, opcode, fieldOP_packWord], by simp [encode, reservedZero_packWord]⟩

theorem ddis : Statement .ddis :=
  ⟨by simp [encode, opcode, fieldOP_packWord], by simp [encode, reservedZero_packWord]⟩

theorem rst : Statement .rst :=
  ⟨by simp [encode, opcode, fieldOP_packWord], by simp [encode, reservedZero_packWord]⟩

end Sys2Proof.Laws.EncodedOpcode
end

