-- ==== Sys2Proof/Tests/Slice0.lean ====
section
/-!
SUPPORT. The model's own tests. Words are written out from 30_encoding.md R47; the vectors are those of 95_test_vectors.md,
named in each docstring by that file's own names. The witnesses show, for each statement with hypotheses, states and operands
that meet them.
-/

namespace Sys2Proof.Tests

open Sys2Proof.Machine

/-- The outcome is a next state with this property. -/
def nextWith (o : Host.Outcome State Fault Refusal) (p : State → Bool) : Bool :=
  match o with
  | .next t => p t
  | .fault _ => false
  | .refused _ => false

theorem nextWith_spec {o : Host.Outcome State Fault Refusal} {p : State → Bool} (h : nextWith o p = true) :
    ∃ t, o = .next t ∧ p t = true := by
  cases o with
  | next t => exact ⟨t, rfl, h⟩
  | fault _ => cases h
  | refused _ => cases h

/-- A block of n buffers with these registers. -/
def block (n : Nat) (act : BitVec 2) (cnt : BitVec 4) (status : Byte) (seg : Memory) : State :=
  { State.powerOn n with seg := seg, act := act, cnt := cnt, status := status }

/-- The pattern buffer PAT of 95_test_vectors.md section 2.1, as buffer 0. -/
def pat : Memory :=
  (List.range 62).filterMap fun i =>
    let v := if i < 60 then i % 10 else 9
    if v = 0 then none else some (i, BitVec.ofNat 8 v)

/-! ## Decoding: words written bit by bit (R47) -/

theorem test_decode_tick : decode 0b0001_00_00_00_000000_00000000_00000000#32 = .ok .tick := by decide

theorem test_decode_segw : decode 0b0010_00_01_00_010111_00000000_00000111#32 = .ok (.segw 1 23 7) := by decide

theorem test_decode_segr : decode 0b0011_00_10_00_000001_00000000_00000000#32 = .ok (.segr 2 1) := by decide

theorem test_decode_sel : decode 0b0100_00_11_00_000000_00000000_00000000#32 = .ok (.sel 3) := by decide

theorem test_decode_str : decode 0b0101_00_00_00_000000_00000000_00000000#32 = .ok .str := by decide

/-- STW 0x41, 0x7C: mask and data are told apart. -/
theorem test_decode_stw : decode 0b0110_00_00_00_000000_01111100_01000001#32 = .ok (.stw 0x41 0x7C) := by decide

theorem test_decode_dtake : decode 0b0111_00_00_00_000000_00000000_00000000#32 = .ok .dtake := by decide

theorem test_decode_ddis : decode 0b1000_00_00_00_000000_00000000_00000000#32 = .ok .ddis := by decide

theorem test_decode_rst : decode 0b1001_00_00_00_000000_00000000_00000000#32 = .ok .rst := by decide

/-- Words of E4, of S6, S12, S16 and Q16 to Q19, and of section 2.5. -/
theorem test_decode_vectors :
    decode 0x202F0006 = .ok (.segw 0 47 6) ∧ decode 0x60007F00 = .ok (.stw 0x00 0x7F) ∧
    decode 0x2000FF0A = .error .reservedBits ∧ decode 0x30000100 = .error .reservedBits ∧
    decode 0x40010000 = .error .reservedBits ∧ decode 0x60008000 = .error .reservedBits ∧
    decode 0x60000080 = .error .reservedBits ∧ decode 0x50000001 = .error .reservedBits ∧
    decode 0x7F000000 = .error .reservedBits ∧ decode 0x3F3F0000 = .error .reservedBits ∧
    decode 0x2C00000A = .error .reservedBits ∧ decode 0xA0000000 = .error .illegalOpcode := by decide

/-- The encoder's words of R54's first table. -/
theorem test_encode_words :
    encode (.segw 0 23 7) = 0x20170007 ∧ encode (.segr 3 63) = 0x333F0000 ∧ encode (.sel 1) = 0x41000000 ∧
    encode (.stw 0x60 0x7C) = 0x60007C60 := by decide

theorem test_decodeTableWord :
    decodeTableWord 32 0x20170007 = some (.segw 0 23 7) ∧ decodeTableWord 32 0x00000000 = none := by decide

/-! ## Checks on commands and lines: each refuses an ill-formed term -/

theorem test_wellFormed_accepts :
    (Instr.segw 1 63 9).wellFormed 2 = true ∧ (Instr.segr 1 0).wellFormed 2 = true ∧ (Instr.sel 0).wellFormed 1 = true ∧
    (Instr.stw 0x7F 0x7F).wellFormed 1 = true := by decide

theorem test_bufferExists_refuses :
    (Instr.segw 2 0 0).bufferExists 2 = false ∧ (Instr.segr 3 0).bufferExists 3 = false ∧
    (Instr.sel 1).bufferExists 1 = false := by decide

theorem test_valueLegal_refuses : (Instr.segw 0 0 10).valueLegal = false := by decide

theorem test_wellFormed_refuses :
    (Instr.segw 2 0 0).wellFormed 2 = false ∧ (Instr.segw 0 0 255).wellFormed 4 = false := by decide

theorem test_fits_refuses :
    (AsmLine.segw 4 0 0).fits = false ∧ (AsmLine.segw 0 64 0).fits = false ∧ (AsmLine.segw 0 0 256).fits = false ∧
    (AsmLine.segr 4 0).fits = false ∧ (AsmLine.segr 0 64).fits = false ∧ (AsmLine.sel 4).fits = false ∧
    (AsmLine.stw 128 0).fits = false ∧ (AsmLine.stw 0 128).fits = false ∧ (AsmLine.word (2 ^ 32)).fits = false ∧
    (AsmLine.setrate 4).fits = false ∧ (AsmLine.setstep 4).fits = false ∧ (AsmLine.showBuffer 4).fits = false := by decide

/-- R54: the assembler accepts SEGW with d in 10..255 or an absent buffer, and words of the pseudo-commands. -/
theorem test_assemble :
    assemble (.segw 3 0 255) = some 0x230000FF ∧ assemble (.segw 0 64 0) = none ∧
    assemble .onecyc = some 0x60006060 ∧ assemble (.setrate 2) = some 0x60000302 ∧
    assemble (.setstep 3) = some 0x60000C0C ∧ assemble (.word 0x2000000A) = some 0x2000000A := by decide

theorem test_parseLine_segw : parseLine "SEGW 0, 0x17, 7 ; 0x20170007".toList = some (.segw 0 23 7) := by decide +kernel

theorem test_parseLine_refuses : parseLine "SEGW 0, 23".toList = none := by decide +kernel

/-! ## One step of each command -/

/-- T3.4. -/
theorem test_tick_mid_sweep :
    nextWith (execWord 0x10000000 (block 2 0 4 0x40 pat)) (fun t =>
      t.latch == 0x3F83E0F83E0F83E0 && t.frames == [0x3F83E0F83E0F83E0] && t.cnt == 5 && t.status == 0x40) = true := by
  decide +kernel

/-- T5: the wrap in one-cycle mode. -/
theorem test_tick_wrap_one_cycle :
    nextWith (execWord 0x10000000 (block 2 0 8 0x60 pat)) (fun t =>
      t.latch == 0x3802008020080200 && t.cnt == 0 && t.status == 0x30) = true := by
  decide +kernel

/-- S3. -/
theorem test_segw_store :
    nextWith (execWord 0x213F0009 State.reset) (fun t =>
      readSegment t 1 63 == 9 && t.frames == [] && t.status == 0 && t.faults == []) = true := by decide

/-- Section 2.5: BAD_BUFFER beats BAD_VALUE with NUM_BUFFERS = 2. -/
theorem test_segw_bad_buffer :
    nextWith (execWord 0x2200000A State.reset) (fun t => t.faults == [⟨.badBuffer, 0x2200000A⟩] && t.seg == []) = true := by
  decide

/-- S2. -/
theorem test_segr_read :
    nextWith (execWord 0x30170000 (block 2 0 0 0 [(23, 7)])) (fun t => t.responses == [7] && t.faults == []) = true := by
  decide

/-- S10. -/
theorem test_segr_bad_buffer :
    nextWith (execWord 0x333F0000 State.reset) (fun t =>
      t.responses == [] && t.faults == [⟨.badBuffer, 0x333F0000⟩]) = true := by decide

/-- S13. -/
theorem test_sel_select :
    nextWith (execWord 0x41000000 (block 2 0 2 0x40 [])) (fun t =>
      t.act == 1 && t.cnt == 2 && t.status == 0x40 && t.frames == []) = true := by decide

/-- S15. -/
theorem test_sel_bad_buffer :
    nextWith (execWord 0x41000000 (State.powerOn 1)) (fun t =>
      t.act == 0 && t.faults == [⟨.badBuffer, 0x41000000⟩]) = true := by decide

/-- Q2. -/
theorem test_str_read :
    nextWith (execWord 0x50000000 (block 2 0 0 0x40 [])) (fun t => t.responses == [0x40] && t.status == 0x40) = true := by
  decide

/-- Q4: CONT. -/
theorem test_stw_cont :
    nextWith (execWord 0x60006040 (block 2 0 3 0x70 [])) (fun t => t.status == 0x50 && t.cnt == 3) = true := by decide

/-- Q7: SETRATE 2. -/
theorem test_stw_setrate :
    nextWith (execWord 0x60000302 (block 2 0 0 0x41 [])) (fun t => t.status == 0x42) = true := by decide

/-- Q11. -/
theorem test_dtake_done :
    nextWith (execWord 0x70000000 (block 2 0 0 0x30 [])) (fun t => t.responses == [1] && t.status == 0x20) = true := by
  decide

/-- Q12. -/
theorem test_dtake_not_done :
    nextWith (execWord 0x70000000 (block 2 0 0 0x20 [])) (fun t => t.responses == [0] && t.status == 0x20) = true := by
  decide

/-- Q13. -/
theorem test_ddis_blank :
    nextWith (execWord 0x80000000 { block 2 0 1 0x50 [] with latch := 0x1000000000000008 }) (fun t =>
      t.status == 0x10 && t.latch == 0 && t.frames == [0] && t.cnt == 1) = true := by decide

/-- Q15; FAULTS kept. -/
theorem test_rst_all :
    nextWith (execWord 0x90000000 { block 2 1 6 0x7F [(70, 3)] with faults := [⟨.badValue, 0x2000000A⟩] }) (fun t =>
      t.seg == [] && t.act == 0 && t.cnt == 0 && t.status == 0 && t.frames == [0] &&
      t.faults == [⟨.badValue, 0x2000000A⟩]) = true := by decide

/-- The word placed is the one the very next step executes (S1). -/
theorem test_withFetchWord :
    nextWith (step (State.reset.withFetchWord 32 0x20170007)) (fun t => readSegment t 0 23 == 7) = true := by decide

/-- S17's and S18's frames are dark; P6's frame: segments 3 and 60. -/
theorem test_frame_vectors :
    activeFrame (block 2 1 2 0x40 [(5, 3)]) = 0 ∧ activeFrame (block 2 0 2 0x40 [(5, 2)]) = 0 ∧
    activeFrame (block 2 0 0 0x40 [(3, 9), (60, 9)]) = 0x1000000000000008 := by decide +kernel

/-- Section 2.2: the groups of 0x8000000000000201, and the serial position of segment 23. -/
theorem test_serial_vectors :
    frameGroups 0x8000000000000201 = [0x01, 0x02, 0, 0, 0, 0, 0, 0x80] ∧
    (frameSerial 0x1000000000800000)[16]? = some true ∧ (frameSerial 0x1000000000800000)[59]? = some true := by
  decide +kernel

/-- Section 2.2's glow elements. -/
theorem test_geometry_vectors :
    elementOf 23 = .digit 2 3 ∧ elementOf 59 = .digit 5 9 ∧ elementOf 60 = .leftLamp ∧ elementOf 63 = .auxB := by decide

/-- X2, X3, X4, X6, X7 and X10. -/
theorem test_segmentStep_vectors :
    segmentStep 0 5 = some 1 ∧ segmentStep 7 5 = none ∧ segmentStep 4 5 = some 5 ∧ segmentStep 9 0 = some 8 ∧
    segmentStep 1 0 = some 0 ∧ segmentStep 9 1 = none := by decide

theorem test_reset_memory_wf : Memory.wf State.reset.seg = true := by decide

/-- Writing 0, what an unlisted address reads as, takes the entry out. -/
theorem test_write_blank : Memory.write [(3, 9), (60, 9)] 3 0 = [(60, 9)] := by decide

/-! ## Witnesses: the hypotheses of each statement can be met -/

/-- A legal state with refresh enabled, in buffer 1 of 2, at the end of a sweep. -/
def enabled : State := block 2 1 8 0x40 [(5, 3), (69, 9)]

theorem witness_EncodeOfDecodeIsTheWord : decode 0x60007C60 = .ok (.stw 0x60 0x7C) := by decide

/-- Each clause: opcodes 0x0, 0xA and 0xF; a reserved and an unused bit; the first absent buffer; the first illegal value; and a
legal word at the last legal value. -/
theorem witness_IllegalWordIsRecordedAndIgnored :
    IllegalOpcode 0x00000000 ∧ IllegalOpcode 0xA0000000 ∧ IllegalOpcode 0xF0000000 ∧
    (¬IllegalOpcode 0x10000001 ∧ SetsReservedBits 0x10000001) ∧
    (¬IllegalOpcode 0x2C00000A ∧ SetsReservedBits 0x2C00000A) ∧
    (¬IllegalOpcode 0x6000C000 ∧ SetsReservedBits 0x6000C000) ∧
    (¬IllegalOpcode 0x2200000A ∧ ¬SetsReservedBits 0x2200000A ∧ NamesAbsentBuffer 2 0x2200000A) ∧
    (¬IllegalOpcode 0x2000000A ∧ ¬SetsReservedBits 0x2000000A ∧ ¬NamesAbsentBuffer 2 0x2000000A ∧
      StoresIllegalValue 0x2000000A) ∧
    (¬IllegalOpcode 0x21000009 ∧ ¬SetsReservedBits 0x21000009 ∧ ¬NamesAbsentBuffer 2 0x21000009 ∧
      ¬StoresIllegalValue 0x21000009 ∧ ∃ t, execWord 0x21000009 (State.powerOn 2) = .next t) :=
  ⟨by decide, by decide, by decide, by decide, by decide, by decide, by decide, by decide,
    by decide, by decide, by decide, by decide, _, rfl⟩

theorem witness_TickWhileDisabledDoesNothing : (block 2 0 3 0x00 pat).status.getLsbD 6 = false := by decide

theorem witness_TickEmitsTheFrameAndAdvances :
    enabled.status.getLsbD 6 = true ∧ enabled.act.toNat < enabled.numBuffers ∧ enabled.cnt.toNat ≤ 8 := by decide

theorem witness_TickHasNoMeaningOutsideLaunchStates :
    (block 2 0 9 0x40 []).status.getLsbD 6 = true ∧ 8 < (block 2 0 9 0x40 []).cnt.toNat ∧
    (block 2 2 0 0x40 []).status.getLsbD 6 = true ∧ (block 2 2 0 0x40 []).numBuffers ≤ (block 2 2 0 0x40 []).act.toNat := by
  decide

theorem witness_TickLeavesAloneWhatItMust :
    (∃ t, exec .tick enabled = .next t) ∧ (0x0F : Byte) &&& 0xF0 = 0 := ⟨⟨_, rfl⟩, by decide⟩

/-- Two states with equal CNT and one equal segment; and a segment byte of 10. -/
theorem witness_LanesAreIndependent :
    (enabled.status.getLsbD 6 = true ∧ (block 2 0 8 0x41 [(5, 9)]).status.getLsbD 6 = true ∧
      enabled.cnt = (block 2 0 8 0x41 [(5, 9)]).cnt ∧
      readSegment enabled enabled.act 5 = readSegment (block 2 0 8 0x41 [(5, 9)]) 0 5 ∧
      (∃ t, exec .tick enabled = .next t) ∧ ∃ v, exec .tick (block 2 0 8 0x41 [(5, 9)]) = .next v) ∧
    ((block 2 0 8 0x40 [(5, 10)]).status.getLsbD 6 = true ∧ 10 ≤ (readSegment (block 2 0 8 0x40 [(5, 10)]) 0 5).toNat ∧
      ∃ t, exec .tick (block 2 0 8 0x40 [(5, 10)]) = .next t) :=
  ⟨⟨by decide, by decide, by decide, by decide, ⟨_, rfl⟩, _, rfl⟩, by decide, by decide, _, rfl⟩

theorem witness_TickReadsOnlyTheActiveBuffer :
    ∀ i : SegmentIndex, Memory.read [(7, 2), (69, 9)] (segKey enabled.act i) = readSegment enabled enabled.act i := by
  decide +kernel

/-- Eight enabled TICKs, and among them a SEGW to the other buffer, an STR, an illegal word, a SEL of the same buffer, and refresh
turned off and on again with a TICK between. -/
def sweepWords : List Word :=
  [encode .tick, encode (.segw 0 5 7), encode .tick, encode .str] ++ List.replicate 6 (encode .tick) ++
    [0x00000000, encode (.sel 1), encode .ddis, encode .tick, encode (.stw 0x40 0x40)]

theorem witness_DutyFidelityOverASweep :
    (block 2 1 0 0x40 [(69, 9)]).Legal ∧ (block 2 1 0 0x40 [(69, 9)]).cnt = 0 ∧
    (∀ w ∈ sweepWords, wordKeepsSweep 1 w = true) ∧
    (tickFrames sweepWords (block 2 1 0 0x40 [(69, 9)])).length = 8 ∧
    nextWith (execWords sweepWords (block 2 1 0 0x40 [(69, 9)])) (fun t => t.status.getLsbD 6) = true :=
  ⟨by decide, by decide, List.all_eq_true.1 (by rfl : sweepWords.all (wordKeepsSweep 1) = true), by rfl, by rfl⟩

theorem witness_SweepFramesNest :
    ((block 2 1 0 0x40 [(69, 9)]).Legal ∧ (block 2 1 0 0x40 [(69, 9)]).cnt.toNat = 0) ∧
    ((block 2 1 7 0x60 [(69, 9)]).Legal ∧ (block 2 1 7 0x60 [(69, 9)]).cnt.toNat = 7 ∧
      (block 2 1 7 0x60 [(69, 9)]).status.getLsbD 6 = true) := by decide

theorem witness_ContinuousRefreshHasPeriodNine :
    enabled.Legal ∧ enabled.status.getLsbD 6 = true ∧ enabled.status.getLsbD 5 = false ∧ 0 < 9 - enabled.cnt.toNat := by
  decide

theorem witness_OneCycleModeSuspendsAtTheWrap :
    (block 1 0 8 0x60 [(5, 3)]).Legal ∧ (block 1 0 8 0x60 [(5, 3)]).status.getLsbD 6 = true ∧
    (block 1 0 8 0x60 [(5, 3)]).status.getLsbD 5 = true ∧ 0 < 9 - (block 1 0 8 0x60 [(5, 3)]).cnt.toNat := by decide

/-- Each clause, at the first absent buffer, the first illegal value, and the last legal ones. -/
theorem witness_SegwStoresTheIntensity :
    State.reset.numBuffers ≤ (2 : BufferIndex).toNat ∧
    ((1 : BufferIndex).toNat < State.reset.numBuffers ∧ 9 < (10 : Byte).toNat) ∧
    ((1 : BufferIndex).toNat < State.reset.numBuffers ∧ (9 : Byte).toNat ≤ 9) := by decide

theorem witness_SegrRespondsTheByte :
    State.reset.numBuffers ≤ (2 : BufferIndex).toNat ∧ (1 : BufferIndex).toNat < State.reset.numBuffers := by decide

theorem witness_SelSetsTheActiveBuffer :
    State.reset.numBuffers ≤ (2 : BufferIndex).toNat ∧ (1 : BufferIndex).toNat < State.reset.numBuffers := by decide

/-- Both clauses: the active buffer and another. -/
theorem witness_SegwReachesTheNextFrameOnlyThroughTheActiveBuffer :
    enabled.Legal ∧ (1 : BufferIndex).toNat < enabled.numBuffers ∧ (9 : Byte).toNat ≤ 9 ∧
    enabled.status.getLsbD 6 = true ∧ 1 = enabled.act ∧ (0 : BufferIndex) ≠ enabled.act ∧ (5 : SegmentIndex) ≠ 6 := by
  decide

theorem witness_SelMidSweepComparesTheNewBuffer :
    enabled.Legal ∧ (0 : BufferIndex).toNat < enabled.numBuffers ∧ enabled.status.getLsbD 6 = true := by decide

theorem witness_ReadRightAfterWriteSeesIt :
    (1 : BufferIndex).toNat < State.reset.numBuffers ∧ (9 : Byte).toNat ≤ 9 ∧ (0x40 : BitVec 7).getLsbD 6 = true := by
  decide

theorem witness_RepeatedCommands :
    (Instr.segw 1 63 9).wellFormed enabled.numBuffers = true ∧ enabled.Legal ∧
    ∃ t, exec (.segw 1 63 9) enabled = .next t := ⟨by decide, by decide, _, rfl⟩

theorem witness_StatusCommandsLeaveTheRestAlone :
    (∃ t, exec .str enabled = .next t) ∧ (∃ t, exec .dtake enabled = .next t) ∧
    ∃ t, exec (.stw 0x7F 0x7F) enabled = .next t := ⟨⟨_, rfl⟩, ⟨_, rfl⟩, _, rfl⟩

theorem witness_PowerOnMeetsTheInvariants : 1 ≤ 1 ∧ 1 ≤ 4 ∧ (State.powerOn 4).Launch := by decide

/-- A legal state from which the one ready agent, the tick agent, takes a wrapping step. -/
theorem witness_StepKeepsLegalStates :
    { enabled with tickPending := 1 }.Legal ∧ ∃ t, step { enabled with tickPending := 1 } = .next t :=
  ⟨by decide, _, rfl⟩

theorem witness_SegmentBytesAreIntensities : enabled.Legal := by decide

theorem witness_EveryCommandCompletesInLegalStates :
    enabled.Legal ∧ (Instr.segw 1 0 9).wellFormed enabled.numBuffers = true := by decide

/-- With a TICK to issue, and in both cases of a stop: nothing to issue, and a host that hangs. -/
theorem witness_StepStopsOnlyWithoutACommand :
    { enabled with tickPending := 1 }.Legal ∧ (enabled.Legal ∧ step enabled = .fault .noCommand) ∧
    ({ enabled with hostRun := some (.crossfade ⟨0, 1, .hung⟩) }.Legal ∧
      step { enabled with hostRun := some (.crossfade ⟨0, 1, .hung⟩) } = .fault .noCommand) :=
  ⟨by decide, ⟨by decide, rfl⟩, by decide, rfl⟩

/-- Each clause: a command that changes what the clause speaks of. -/
theorem witness_WritersOfEachRegister :
    nextWith (exec (.segw 0 0 1) enabled) (fun t => t.seg != enabled.seg) = true ∧
    nextWith (exec (.sel 0) enabled) (fun t => t.act != enabled.act) = true ∧
    nextWith (exec .tick enabled) (fun t => t.cnt != enabled.cnt) = true ∧
    nextWith (exec (.stw 0x20 0x20) enabled) (fun t => t.status.getLsbD 5 != enabled.status.getLsbD 5) = true ∧
    nextWith (exec .tick enabled) (fun t => !enabled.status.getLsbD 4 && t.status.getLsbD 4) = true ∧
    nextWith (exec (.stw 0x40 0x40) State.reset) (fun t => !State.reset.status.getLsbD 6 && t.status.getLsbD 6) = true ∧
    nextWith (exec .tick { enabled with status := 0x60 }) (fun t => !t.status.getLsbD 6) = true ∧
    nextWith (exec .dtake { enabled with status := 0x50 }) (fun t => !t.status.getLsbD 4) = true ∧
    nextWith (exec .rst { enabled with status := 0xC0 }) (fun t => !t.status.getLsbD 7) = true ∧
    nextWith (exec (.sel 2) enabled) (fun t => t.faults != enabled.faults) = true ∧
    nextWith (exec .tick enabled) (fun t => t.latch != enabled.latch && t.frames != enabled.frames) = true ∧
    nextWith (exec .str enabled) (fun t => t.responses != enabled.responses) = true := by decide +kernel

theorem witness_RecordsOnlyGrow : ∃ t, step { enabled with hostPending := [.word 0x00000000] } = .next t := ⟨_, rfl⟩

theorem witness_LatchStaysTheLastFrame :
    (enabled.frames = [] ∨ enabled.frames.getLast? = some enabled.latch) ∧
    ∃ t, step { enabled with tickPending := 1 } = .next t := ⟨by decide, _, rfl⟩

theorem witness_FrameGoesOutInSerialOrder : 7 < 8 ∧ 63 < 64 := by decide

/-- Both clauses: a command that emits, and one that does not. -/
theorem witness_EachEmittingCommandSendsOneFrame :
    (∃ t, exec .tick enabled = .next t) ∧ enabled.status.getLsbD 6 = true ∧ (∃ t, exec .ddis enabled = .next t) ∧
    (∃ t, exec .rst enabled = .next t) ∧ ∃ t, exec .str enabled = .next t :=
  ⟨⟨_, rfl⟩, by decide, ⟨_, rfl⟩, ⟨_, rfl⟩, _, rfl⟩

/-- The host in the crossfade of buffers 0 and 1, at this phase. -/
def fading (p : Phase) : State := { block 2 0 8 0x20 [(5, 3), (69, 9)] with hostRun := some (.crossfade ⟨0, 1, p⟩) }

/-- Each clause: a word of the host, a TICK, a command of the procedure, a wait, a word of another part of the host, a placed word,
and all three agents ready. -/
theorem witness_StepRunsTheDecodedCommand :
    decode 0x20170007 = .ok (.segw 0 23 7) ∧
    ({ enabled with hostPending := [.word 0x20170007] }.tickPending = 0 ∧
      { enabled with hostPending := [.word 0x20170007] }.otherPending = []) ∧
    0 < { enabled with tickPending := 1 }.tickPending ∧
    ((fading .readStatus).tickPending = 0 ∧ (Procedure.crossfade ⟨0, 1, .readStatus⟩).command = some .str) ∧
    { enabled with hostPending := [.awaitDone] }.hostPending = .awaitDone :: [] ∧
    { enabled with otherPending := [0x20170007] }.hostPending = [] ∧
    decodeTableWord 32 0x20170007 = some (.segw 0 23 7) ∧
    readyAgents { fading .readStatus with tickPending := 1, otherPending := [0x80000000] } =
      [.tickAgent, .host, .otherHost] := by decide

theorem witness_TickIsTheSameFromEitherAgent :
    { enabled with hostPending := [.word (encode .tick)] }.hostRun = none ∧
    { enabled with otherPending := [encode .tick] }.otherPending = encode .tick :: [] := by decide

/-- A run of the host's word, the tick agent's TICK and another part's word. -/
theorem witness_EveryRunIsAnInterleaving :
    nextWith (runWith (fun n => if n = 0 then .otherHost else .host) 3
      { enabled with tickPending := 1, hostPending := [HostOp.word 0x50000000], otherPending := [0x80000000] })
      (fun t => t.tickPending == 0 && t.responses == [0x00]) = true ∧
    [HostOp.word 0x50000000] = [(0x50000000 : Word)].map HostOp.word := by decide +kernel

/-- A TICK, then another part's DDIS, then the host's STR. -/
theorem witness_EveryInterleavingIsARun :
    Interleaving [(0x50000000 : Word)] [0x80000000] [0x80000000, 0x50000000] ∧
    Interleaving (List.replicate 1 (encode .tick)) [(0x80000000 : Word), 0x50000000]
      [encode .tick, 0x80000000, 0x50000000] ∧
    nextWith (execWords [encode .tick, 0x80000000, 0x50000000]
      { enabled with tickPending := 1, hostPending := [HostOp.word 0x50000000], otherPending := [0x80000000] })
      (fun t => t.responses == [0x10]) = true :=
  ⟨.right _ (.left _ .nil), .left _ (.right _ (.right _ .nil)), by decide +kernel⟩

theorem witness_MaskedUpdateCommutesWithTick :
    (0x0F : BitVec 7).getLsbD 4 = false ∧ (0x0F : BitVec 7).getLsbD 5 = false ∧ (0x0F : BitVec 7).getLsbD 6 = false ∧
    ∃ t, exec .tick enabled = .next t := ⟨by decide, by decide, by decide, _, rfl⟩

theorem witness_TornStatusUpdate :
    (block 2 0 8 0x60 []).Legal ∧ (block 2 0 8 0x60 []).status = 0x60 ∧ (block 2 0 8 0x60 []).cnt = 8 := by decide

theorem witness_BootSequenceEndsReadyToShow :
    (∀ x ∈ [SegmentWrite.mk 1 63 9, SegmentWrite.mk 0 0 0], x.b.toNat < 2 ∧ x.v.toNat ≤ 9) ∧
    (1 : BufferIndex).toNat < 2 := by decide

theorem witness_StreamResetClearsTheBuffer : (1 : BufferIndex).toNat < enabled.numBuffers := by decide

theorem witness_DigitWriteShowsExactlyTheDigit :
    (1 : BufferIndex).toNat < enabled.numBuffers ∧ (9 : Byte).toNat ≤ 9 ∧ (1 : BufferIndex) ≠ 0 ∧
    ∀ d' : Fin 10, (60 : SegmentIndex) ≠ segmentOf (.digit 5 d') := by decide

theorem witness_CrossfadeStartsWithOneWrite :
    { enabled with hostPending := [.crossfade 1 0] }.hostRun = none ∧
    { enabled with hostPending := [.crossfade 1 0] }.hostPending = .crossfade 1 0 :: [] := by decide

theorem witness_CrossfadeRateGating :
    (fading .readStatus).hostRun = some (.crossfade ⟨0, 1, .readStatus⟩) ∧
    (fading (.throttle 2)).hostRun = some (.crossfade ⟨0, 1, .throttle 2⟩) ∧
    (fading (.finishPass true)).hostRun = some (.crossfade ⟨0, 1, .finishPass true⟩) := by decide

/-- Where the discipline holds of a running crossfade: its three parts. -/
theorem discipline_of {s : State} {c : Crossfade} (h : s.hostRun = some (.crossfade c))
    (hw : s.otherPending.all wordLeavesFlags = true)
    (hf : (statusONE s.status && (c.phase != .poll || statusEN s.status == !statusDONE s.status) &&
      (!c.phase.quiet || (!statusEN s.status && !statusDONE s.status))) = true) : s.CrossfadeDiscipline := by
  refine ⟨List.all_eq_true.1 hw, ?_⟩
  rw [h]
  simp only [Bool.and_eq_true, Bool.or_eq_true, bne_iff_ne, beq_iff_eq, Bool.not_eq_true'] at hf
  exact ⟨hf.1.1, fun e => hf.1.2.resolve_left fun n => n e, fun e => hf.2.resolve_left (by simp [e])⟩

/-- Waiting with refresh on, another part of the host having a SEGW to issue. -/
theorem witness_StepKeepsTheCrossfadeDiscipline_wait :
    { fading .poll with status := 0x60, otherPending := [0x20170007] }.CrossfadeDiscipline ∧
    nextWith (step { fading .poll with status := 0x60 }) (fun _ => true) = true :=
  ⟨discipline_of rfl (by decide +kernel) (by decide +kernel), by decide +kernel⟩

/-- Waiting with DONE set, quiet, and about to leave. -/
theorem witness_StepKeepsTheCrossfadeDiscipline :
    ({ fading .poll with status := 0x30 }.CrossfadeDiscipline ∧
      nextWith (step { fading .poll with status := 0x30 }) (fun _ => true) = true) ∧
    ((fading .readStatus).CrossfadeDiscipline ∧ nextWith (step (fading .readStatus)) (fun _ => true) = true) ∧
    ((fading .leave).CrossfadeDiscipline ∧ nextWith (step (fading .leave)) (fun _ => true) = true) :=
  ⟨⟨discipline_of rfl (by decide +kernel) (by decide +kernel), by decide +kernel⟩,
    ⟨discipline_of rfl (by decide +kernel) (by decide +kernel), by decide +kernel⟩,
    discipline_of rfl (by decide +kernel) (by decide +kernel), by decide +kernel⟩

theorem witness_NoTickRacesAStepPass :
    (fading (.readActive 63 true)).CrossfadeDiscipline ∧
    (fading (.readActive 63 true)).hostRun = some (.crossfade ⟨0, 1, .readActive 63 true⟩) ∧
    (Phase.readActive 63 true).quiet = true :=
  ⟨discipline_of rfl (by decide +kernel) (by decide +kernel), by decide, by decide⟩

theorem witness_SteppingPassStepsEverySegment :
    (fading (.readActive 0 false)).CrossfadeDiscipline ∧
    (∀ b i, (readSegment (fading (.readActive 0 false)) b i).toNat ≤ 9) ∧
    (fading (.readActive 0 false)).otherPending = [] ∧ (0 : BufferIndex).toNat < (fading (.readActive 0 false)).numBuffers ∧
    (1 : BufferIndex).toNat < (fading (.readActive 0 false)).numBuffers ∧
    (fading (.readActive 0 false)).hostRun = some (.crossfade ⟨0, 1, .readActive 0 false⟩) :=
  ⟨discipline_of rfl (by decide +kernel) (by decide +kernel), by decide +kernel, by decide, by decide, by decide, by decide⟩

theorem witness_NinePassesConverge : (9 : Byte).toNat ≤ 9 ∧ (0 : Byte).toNat ≤ 9 ∧ 9 ≤ 9 := by decide

/-- A crossfade that starts one TICK before a wrap, of two equal buffers, returns after its one pass. -/
theorem witness_CrossfadeReturnsItsResult :
    let s := { block 2 0 8 0x40 [(5, 3), (69, 3)] with tickPending := 1, hostPending := [.crossfade 0 1] }
    s.Legal ∧ s.hostRun = none ∧ s.hostPending = [.crossfade 0 1] ∧ s.otherPending = [] ∧
    (0 : BufferIndex).toNat < s.numBuffers ∧ (1 : BufferIndex).toNat < s.numBuffers ∧
    nextWith (runWith (fun n => if n = 0 then .host else .tickAgent) 134 s)
      (fun u => u.hostRun == none && u.hostPending == []) = true := by decide +kernel

/-- Both kinds of wait, another part of the host having a DDIS to issue; and a wait left by a DTAKE that responds 0x01. -/
theorem witness_WaitWithRefreshOffNeverEnds :
    ((fading .poll).hostRun = some (.crossfade ⟨0, 1, .poll⟩) ∧ (Procedure.crossfade ⟨0, 1, .poll⟩).waits = true ∧
      Procedure.awaitDone.waits = true ∧ (fading .poll).status.getLsbD 6 = false ∧ (fading .poll).status.getLsbD 4 = false ∧
      (∀ w ∈ [(0x80000000 : Word)], wordSetsFlag w = false) ∧
      nextWith (runWith (fun _ => .otherHost) 2 { fading .poll with otherPending := [0x80000000] }) (fun _ => true) = true) ∧
    nextWith (step { enabled with status := 0x50, hostRun := some .awaitDone })
      (fun t => t.hostRun == none && t.responses == [1]) = true :=
  ⟨⟨by decide, by decide, by decide, by decide, by decide,
      fun w hw => by rw [List.mem_singleton.1 hw]; decide, by decide +kernel⟩, by decide +kernel⟩

theorem witness_FaultingReadHangsTheHost :
    let s := { State.powerOn 1 with hostRun := some (.crossfade ⟨1, 1, .readActive 0 false⟩) }
    let u := { State.powerOn 1 with hostRun := some (.crossfade ⟨0, 1, .readTarget 0 false 0⟩) }
    (s.hostRun = some (.crossfade ⟨1, 1, .readActive 0 false⟩) ∧ s.numBuffers ≤ (1 : BufferIndex).toNat) ∧
    (u.hostRun = some (.crossfade ⟨0, 1, .readTarget 0 false 0⟩) ∧ u.numBuffers ≤ (1 : BufferIndex).toNat) ∧
    ((fading .hung).hostRun = some (.crossfade ⟨0, 1, .hung⟩) ∧ (fading .hung).tickPending = 0 ∧
      (fading .hung).otherPending = []) ∧
    nextWith (runWith (fun _ => .tickAgent) 2 { fading .hung with tickPending := 1, otherPending := [0x60004040] })
      (fun v => v.tickPending == 0 && v.otherPending == []) = true := by decide +kernel

/-- Each clause: DDIS, RST and SUSP (STW 0x00, 0x40) of another part of the host during a wait with refresh on. -/
theorem witness_RefreshTurnedOffDuringAWaitHangsIt :
    (∀ i ∈ [Instr.ddis, .rst, .stw 0x00 0x40],
      let s := { fading .poll with status := 0x60, tickPending := 1, otherPending := [encode i] }
      s.hostRun = some (.crossfade ⟨0, 1, .poll⟩) ∧ (Procedure.crossfade ⟨0, 1, .poll⟩).waits = true ∧
      s.status.getLsbD 4 = false ∧ s.otherPending = encode i :: []) ∧
    (0x40 : BitVec 7).getLsbD 6 = true ∧ (0x00 : BitVec 7).getLsbD 6 = false ∧
    nextWith (runWith (fun _ => .otherHost) 2
      { fading .poll with status := 0x60, tickPending := 1, otherPending := [encode .rst] })
      (fun u => u.hostRun == some (.crossfade ⟨0, 1, .poll⟩)) = true := by decide +kernel

/-- From reset, a word of another part of the host placed beside a wait: the DDIS of R94's example comes to run in the wait. -/
theorem test_ddis_in_wait :
    nextWith (runWith (fun n => if n = 0 then .host else .otherHost) 2
      { State.reset with hostPending := [.crossfade 0 1], otherPending := [0x80000000] })
      (fun t => t.hostRun == some (.crossfade ⟨0, 1, .poll⟩) && t.status == 0x20 && t.frames == [0]) = true := by decide +kernel

end Sys2Proof.Tests
end

/-! ## Proofs: the digit geometry (10_state.md R24, R25) -/
section
namespace Sys2Proof.Proofs
open Sys2Proof.Machine

/-! ### The segment of an element and the element of a segment -/

@[simp] theorem toNat_segmentOf_digit (p : Fin 6) (d : Fin 10) :
    (segmentOf (.digit p d)).toNat = 10 * p.val + d.val :=
  (BitVec.toNat_ofNat _ _).trans (Nat.mod_eq_of_lt (by omega))

theorem elementOf_of_lt_sixty {i : SegmentIndex} (h : i.toNat < 60) :
    elementOf i = .digit ⟨i.toNat / 10, by omega⟩ ⟨i.toNat % 10, by omega⟩ :=
  dif_pos h

theorem elementOf_segmentOf (e : GlowElement) : elementOf (segmentOf e) = e := by
  cases e with
  | digit p d =>
    have hlt : (segmentOf (.digit p d)).toNat < 60 := by rw [toNat_segmentOf_digit]; omega
    have htube : (10 * p.val + d.val) / 10 = p.val := by omega
    have hdigit : (10 * p.val + d.val) % 10 = d.val := by omega
    simp [elementOf_of_lt_sixty hlt, htube, hdigit]
  | leftLamp => rfl
  | rightLamp => rfl
  | auxA => rfl
  | auxB => rfl

/-- The segments above those of the tubes are the four single ones of R24's last rows. -/
theorem eq_single_of_sixty_le {i : SegmentIndex} (h : 60 ≤ i.toNat) :
    i = 60 ∨ i = 61 ∨ i = 62 ∨ i = 63 := by
  bv_omega

theorem segmentOf_elementOf (i : SegmentIndex) : segmentOf (elementOf i) = i := by
  by_cases h : i.toNat < 60
  · apply BitVec.eq_of_toNat_eq
    rw [elementOf_of_lt_sixty h, toNat_segmentOf_digit]
    exact Nat.div_add_mod i.toNat 10
  · obtain rfl | rfl | rfl | rfl := eq_single_of_sixty_le (Nat.le_of_not_lt h) <;> rfl

/-! ### The positions cover the segments -/

/-- The row of R24's table that an element belongs to. -/
def positionOf : GlowElement → Position
  | .digit p _ => .tube p
  | .leftLamp => .leftLamp
  | .rightLamp => .rightLamp
  | .auxA => .auxA
  | .auxB => .auxB

/-- The positions of R24 do not overlap: the one whose range holds an element's segment is the element's own. -/
theorem segmentOf_mem_position_iff (e : GlowElement) (q : Position) :
    (q.offset ≤ (segmentOf e).toNat ∧ (segmentOf e).toNat < q.offset + q.segmentCount) ↔ q = positionOf e := by
  cases e with
  | digit p d =>
    cases q with
    | tube r => simp [positionOf, Position.offset, Position.segmentCount, Fin.ext_iff]; omega
    | _ => simp [positionOf, Position.offset]; omega
  | _ =>
    cases q with
    | tube r => simp [positionOf, segmentOf, Position.offset, Position.segmentCount]; omega
    | _ => simp [positionOf, segmentOf, Position.offset, Position.segmentCount]

theorem existsUnique_position (i : SegmentIndex) :
    ∃! q : Position, q.offset ≤ i.toNat ∧ i.toNat < q.offset + q.segmentCount := by
  have hiff := segmentOf_mem_position_iff (elementOf i)
  rw [segmentOf_elementOf] at hiff
  exact ⟨positionOf (elementOf i), (hiff _).2 rfl, fun q => (hiff q).1⟩

/-- Settles O41: `segmentOf` and `elementOf` are inverse, and a segment's one position is that of its element. -/
theorem geometryOfTheSegments : Obligations.GeometryOfTheSegments :=
  ⟨elementOf_segmentOf, segmentOf_elementOf,
    fun p d => ⟨toNat_segmentOf_digit p d, rfl, rfl, rfl⟩,
    ⟨rfl, rfl, rfl, rfl⟩, ⟨rfl, rfl, rfl, rfl⟩, ⟨rfl, rfl, rfl, rfl⟩, ⟨rfl, rfl, rfl, rfl⟩,
    existsUnique_position⟩

end Sys2Proof.Proofs
end

/-! ## Proofs: the serial order of a frame (20_memory.md R32, R33) -/
section
namespace Sys2Proof.Proofs
open Sys2Proof.Machine

/-! ### Groups and their bits -/

/-- R32: `G[k] = F[8k+7 : 8k]`, bit by bit. -/
theorem getLsbD_frameGroup (F : Frame) (k : Nat) {j : Nat} (hj : j < 8) :
    (frameGroup F k).getLsbD j = F.getLsbD (8 * k + j) := by
  simp [frameGroup, Config.groupBits, hj]

@[simp] theorem length_groupBitsSent (g : Byte) : (groupBitsSent g).length = 8 := rfl

/-- R33: bit 7 of a group is sent first and bit 0 last. -/
theorem getElem?_groupBitsSent (g : Byte) {j : Nat} (hj : j < 8) :
    (groupBitsSent g)[7 - j]? = some (g.getLsbD j) := by
  have hlt : 7 - j < 8 := by omega
  have hback : 7 - (7 - j) = j := by omega
  simp [groupBitsSent, Config.groupBits, List.getElem?_range hlt, hback]

theorem getElem?_frameGroups (F : Frame) {k : Nat} (hk : k < 8) :
    (frameGroups F)[k]? = some (frameGroup F k) := by
  simp [frameGroups, Config.groupsPerFrame, List.getElem?_range hk]

/-! ### The serial sequence -/

/-- In a sequence of blocks of `c` entries each, entry `j` of block `k` stands at position `c * k + j`. -/
theorem getElem?_flatMap_block {α β : Type} {f : α → List β} {c : Nat} (hf : ∀ a, (f a).length = c)
    (l : List α) (k : Nat) {j : Nat} (hj : j < c) :
    (l.flatMap f)[c * k + j]? = l[k]?.bind fun a => (f a)[j]? := by
  induction l generalizing k with
  | nil => rfl
  | cons a l ih =>
    rw [List.flatMap_cons]
    cases k with
    | zero =>
      have hfirst : c * 0 + j < (f a).length := by rw [hf]; omega
      rw [List.getElem?_append_left hfirst]
      simp
    | succ k =>
      have hpast : (f a).length ≤ c * (k + 1) + j := by rw [hf, Nat.mul_succ]; omega
      have hrest : c * (k + 1) + j - (f a).length = c * k + j := by rw [hf, Nat.mul_succ]; omega
      rw [List.getElem?_append_right hpast, hrest, ih, List.getElem?_cons_succ]

theorem length_frameSerial (F : Frame) : (frameSerial F).length = 64 := by
  simp [frameSerial, List.length_flatMap, frameGroups, Config.groupsPerFrame, Function.comp_def]

/-- Bit `j` of group `k` follows the `k` groups before it and the `7 - j` higher bits of its own. -/
theorem getElem?_frameSerial (F : Frame) {k j : Nat} (hk : k < 8) (hj : j < 8) :
    (frameSerial F)[8 * k + (7 - j)]? = some (F.getLsbD (8 * k + j)) := by
  have hlt : 7 - j < 8 := by omega
  rw [frameSerial, getElem?_flatMap_block length_groupBitsSent _ k hlt, getElem?_frameGroups F hk,
    Option.bind_some, getElem?_groupBitsSent _ hj, getLsbD_frameGroup F k hj]

/-- Settles O39: segment i is bit `i % 8` of group `i / 8`, whose place in the serial sequence `getElem?_frameSerial` gives. -/
theorem frameGoesOutInSerialOrder : Obligations.FrameGoesOutInSerialOrder := by
  intro F
  refine ⟨rfl, fun k j _ hj => getLsbD_frameGroup F k hj, length_frameSerial F, fun i hi => ?_⟩
  have hgroup : i / 8 < 8 := by omega
  have hbit : i % 8 < 8 := Nat.mod_lt i (by decide)
  rw [getElem?_frameSerial F hgroup hbit, Nat.div_add_mod]

end Sys2Proof.Proofs
end

/-! ## Proofs: TICK (40_refresh.md R60 to R66) -/
section
namespace Sys2Proof.Proofs
open Sys2Proof.Machine

@[simp] theorem exec_tick (s : State) : exec .tick s = execTick s := rfl

/-- R61: with EN 0, TICK does nothing. -/
theorem exec_tick_of_EN_false {s : State} (h : s.status.getLsbD 6 = false) : exec .tick s = .next s :=
  execTick_disabled h

/-- Settles O7: TICK's branch for EN 0. -/
theorem tickWhileDisabledDoesNothing : Obligations.TickWhileDisabledDoesNothing :=
  fun _ => exec_tick_of_EN_false

/-! ### The counter's advance, as R65 writes it -/

theorem setDONE_eq (w : Byte) : setDONE w = w ||| 0x10 := by
  show setDONE w = w ||| maskDONE
  refine BitVec.eq_of_getLsbD_eq fun j _ => ?_
  rw [getLsbD_setDONE, BitVec.getLsbD_or, maskDONE_bit, Bool.or_comm]

theorem clearEN_eq (w : Byte) : clearEN w = w &&& 0xBF :=
  BitVec.or_zero

/-- R65: the wrap's update of STATUS, in the operators of the word. -/
theorem statusAfterWrap_eq (w : Byte) :
    statusAfterWrap w = if w.getLsbD 5 then (w ||| 0x10) &&& 0xBF else w ||| 0x10 := by
  rw [statusAfterWrap, statusONE, setDONE_eq, clearEN_eq]

/-- The two branches of the advance, moved into the two fields it changes. -/
theorem advanceCounter_eq (s : State) :
    advanceCounter s = { s with
      cnt := if s.cnt.toNat = 8 then 0 else s.cnt + 1
      status := if s.cnt.toNat = 8 then statusAfterWrap s.status else s.status } := by
  rcases advanceCounter_cases s with ⟨h, hadv⟩ | ⟨h, hadv⟩
  · have hwrap : s.cnt.toNat = 8 := by omega
    simp [hadv, hwrap]
  · have hstay : s.cnt.toNat ≠ 8 := by omega
    simp [hadv, hstay]

/-- R66: of STATUS, the advance writes at most DONE and EN. -/
theorem getLsbD_advanceCounter_status (s : State) {j : Nat} (h4 : j ≠ 4) (h6 : j ≠ 6) :
    (advanceCounter s).status.getLsbD j = s.status.getLsbD j := by
  rcases advanceCounter_cases s with ⟨_, hadv⟩ | ⟨_, hadv⟩
  · simp [hadv, h4, h6, -BitVec.getLsbD_eq_getElem]
  · rw [hadv]

@[simp] theorem advanceCounter_agents (s : State) : (advanceCounter s).agents = s.agents := by
  simp [State.agents]

/-- Settles O8: the frame is the active buffer's compare, and the next state is the advance with `statusAfterWrap` written out. -/
theorem tickEmitsTheFrameAndAdvances : Obligations.TickEmitsTheFrameAndAdvances := by
  intro s hen hact hcnt
  have hdef : refreshDefined s = true := (refreshDefined_iff s).2 ⟨hact, Nat.lt_succ_of_le hcnt⟩
  refine ⟨activeFrame s, getLsbD_activeFrame s, ?_⟩
  rw [exec_tick, execTick_enabled hen hdef, advanceCounter_eq, statusAfterWrap_eq]
  rfl

/-! ### STATUS bits that TICK does not read -/

/-- The machine with STATUS rewritten under a mask, as STW does (42_status_control.md R76). -/
def maskStatus (m d : Byte) (s : State) : State := { s with status := maskedWrite s.status m d }

@[simp] theorem maskStatus_status (m d : Byte) (s : State) :
    (maskStatus m d s).status = maskedWrite s.status m d := rfl

section LeavesFlags
variable {m : Byte} (h4 : m.getLsbD 4 = false) (h5 : m.getLsbD 5 = false) (h6 : m.getLsbD 6 = false)
include h4 h5 h6

/-- The wrap's update commutes with a masked write that leaves DONE, ONE and EN alone. -/
theorem statusAfterWrap_maskedWrite (w d : Byte) :
    statusAfterWrap (maskedWrite w m d) = maskedWrite (statusAfterWrap w) m d := by
  refine BitVec.eq_of_getLsbD_eq fun j _ => ?_
  simp only [getLsbD_statusAfterWrap, getLsbD_maskedWrite, h5]
  by_cases j4 : j = 4
  · simp [j4, h4, -BitVec.getLsbD_eq_getElem]
  · by_cases j6 : j = 6
    · simp [j6, h6, -BitVec.getLsbD_eq_getElem]
    · simp [j4, j6]

theorem advanceCounter_maskStatus (d : Byte) (s : State) :
    advanceCounter (maskStatus m d s) = maskStatus m d (advanceCounter s) := by
  simp only [advanceCounter_eq, maskStatus, statusAfterWrap_maskedWrite h4 h5 h6]
  split_ifs <;> rfl

/-- TICK commutes with a masked write of STATUS that leaves DONE, ONE and EN alone. -/
theorem execTick_maskStatus {s t : State} (h : execTick s = .next t) (d : Byte) :
    execTick (maskStatus m d s) = .next (maskStatus m d t) := by
  have hEN : statusEN (maskStatus m d s).status = statusEN s.status := by
    simp [statusEN, h6, -BitVec.getLsbD_eq_getElem]
  rcases execTick_cases h with ⟨hen, rfl⟩ | ⟨hen, hdef, rfl⟩
  · exact execTick_disabled (hEN.trans hen)
  · rw [execTick_enabled (hEN.trans hen) hdef, ← advanceCounter_maskStatus h4 h5 h6]
    rfl

end LeavesFlags

/-- Other values in RATE and STEP, bits 3:0, are a masked write of those four bits. -/
theorem lowBits_eq_maskedWrite (w : Byte) {r : Byte} (hr : r &&& 0xF0 = 0) :
    (w &&& 0xF0) ||| r = maskedWrite w 0x0F r := by
  have hlow : r &&& 0x0F = r :=
    calc r &&& 0x0F = r &&& 0x0F ||| r &&& 0xF0 := by rw [hr]; exact BitVec.or_zero.symm
      _ = r &&& (0x0F ||| 0xF0) := BitVec.and_or_distrib_left.symm
      _ = r := BitVec.and_allOnes
  rw [maskedWrite, hlow]
  rfl

/-- Settles O10: the fields are those of the advance, and RATE and STEP lie under a mask that leaves DONE, ONE and EN alone. -/
theorem tickLeavesAloneWhatItMust : Obligations.TickLeavesAloneWhatItMust := by
  refine ⟨fun s t h => ?_, fun s t r hr h => ?_⟩
  · rcases execTick_cases h with ⟨_, rfl⟩ | ⟨_, _, rfl⟩
    · exact ⟨rfl, rfl, fun _ _ _ => rfl, rfl, rfl, rfl, rfl⟩
    · refine ⟨by simp, by simp, fun j h4 h6 => ?_, by simp, by simp, by simp, ?_⟩
      · exact getLsbD_advanceCounter_status _ h4 h6
      · exact advanceCounter_agents _
  · simp only [lowBits_eq_maskedWrite _ hr]
    exact execTick_maskStatus (m := 0x0F) rfl rfl rfl h r

/-! ### The lanes of TICK's frame -/

/-- What an enabled TICK latches: the frame of the compare, in a state the refresh is defined in. -/
theorem latch_of_exec_tick {s t : State} (hen : s.status.getLsbD 6 = true) (h : exec .tick s = .next t) :
    refreshDefined s = true ∧ t.latch = activeFrame s := by
  rcases execTick_cases h with ⟨hdis, _⟩ | ⟨_, hdef, rfl⟩
  · rw [statusEN, hen] at hdis
    cases hdis
  · exact ⟨hdef, by simp⟩

/-- Settles O11: each latched lane is the unsigned compare of its own segment with CNT, which is below 9. -/
theorem lanesAreIndependent : Obligations.LanesAreIndependent := by
  refine ⟨fun s u t v i hs hu hcnt hseg ht hv => ?_, fun s t i hs hseg ht => ?_⟩
  · obtain ⟨_, hlt⟩ := latch_of_exec_tick hs ht
    obtain ⟨_, hlv⟩ := latch_of_exec_tick hu hv
    rw [hlt, hlv, getLsbD_activeFrame, getLsbD_activeFrame, hcnt, hseg]
  · obtain ⟨hdef, hlt⟩ := latch_of_exec_tick hs ht
    obtain ⟨_, hcnt⟩ := (refreshDefined_iff s).1 hdef
    rw [hlt, getLsbD_activeFrame, decide_eq_true_iff]
    omega

end Sys2Proof.Proofs
end

/-! ## Proofs: the segment buffer commands (41_segment_buffer.md R70 to R72) -/
section
namespace Sys2Proof.Proofs
open Sys2Proof.Machine

/-! ### The command words from their fields -/

/-- A field `v` put at bit `k` of a word: its bits from `k` up, and 0 below. -/
theorem getLsbD_zeroExtend_shiftLeft {n : Nat} (v : BitVec n) (k : Nat) {j : Nat} (hj : j < 32) :
    (v.zeroExtend 32 <<< k).getLsbD j = (!decide (j < k) && v.getLsbD (j - k)) := by
  have hback : j - k < 32 := by omega
  simp [hj, hback, -BitVec.getLsbD_eq_getElem]

/-- R45: a packed word is the OR of its fields at their shifts; in each range of bits all fields but its own are 0. -/
theorem packWord_eq_or (op : BitVec 4) (b : BufferIndex) (i : SegmentIndex) (m d : Byte) :
    packWord op b i m d = op.zeroExtend 32 <<< 28 ||| b.zeroExtend 32 <<< 24 ||| i.zeroExtend 32 <<< 16 |||
      m.zeroExtend 32 <<< 8 ||| d.zeroExtend 32 := by
  rw [← BitVec.shiftLeft_zero (d.zeroExtend 32)]
  refine BitVec.eq_of_getLsbD_eq fun j hj => ?_
  rw [getLsbD_packWord]
  simp only [BitVec.getLsbD_or, getLsbD_zeroExtend_shiftLeft _ _ hj]
  split_ifs <;> simp (disch := omega) [decide_eq_true, decide_eq_false, BitVec.getLsbD_of_ge]

theorem encode_segw (b : BufferIndex) (i : SegmentIndex) (d : Byte) : encode (.segw b i d) =
    0x20000000#32 ||| b.zeroExtend 32 <<< 24 ||| i.zeroExtend 32 <<< 16 ||| d.zeroExtend 32 := by
  simp [encode, packWord_eq_or]

theorem encode_segr (b : BufferIndex) (i : SegmentIndex) : encode (.segr b i) =
    0x30000000#32 ||| b.zeroExtend 32 <<< 24 ||| i.zeroExtend 32 <<< 16 := by
  simp [encode, packWord_eq_or]

theorem encode_sel (b : BufferIndex) : encode (.sel b) = 0x40000000#32 ||| b.zeroExtend 32 <<< 24 := by
  simp [encode, packWord_eq_or]

/-! ### The outcomes of each command, under their conditions -/

section Outcomes
variable {s : State} {b : BufferIndex}

theorem exec_segw_of_absent (h : s.numBuffers ≤ b.toNat) (i : SegmentIndex) (d : Byte) :
    exec (.segw b i d) s = .next (raiseFault .badBuffer (encode (.segw b i d)) s) := by
  rcases execSegw_cases b i d s with ⟨_, he⟩ | ⟨hb, _⟩ | ⟨hb, _⟩
  · exact he
  · omega
  · omega

theorem exec_segw_of_illegal (h : b.toNat < s.numBuffers) (i : SegmentIndex) {d : Byte} (hd : 9 < d.toNat) :
    exec (.segw b i d) s = .next (raiseFault .badValue (encode (.segw b i d)) s) := by
  rcases execSegw_cases b i d s with ⟨hb, _⟩ | ⟨_, _, he⟩ | ⟨_, hle, _⟩
  · omega
  · exact he
  · omega

theorem exec_segw_of_legal (h : b.toNat < s.numBuffers) (i : SegmentIndex) {d : Byte} (hd : d.toNat ≤ 9) :
    exec (.segw b i d) s = .next (writeSegment s b i d) := by
  rcases execSegw_cases b i d s with ⟨hb, _⟩ | ⟨_, hgt, _⟩ | ⟨_, _, he⟩
  · omega
  · omega
  · exact he

theorem exec_segr_of_absent (h : s.numBuffers ≤ b.toNat) (i : SegmentIndex) :
    exec (.segr b i) s = .next (raiseFault .badBuffer (encode (.segr b i)) s) := by
  rcases execSegr_cases b i s with ⟨_, he⟩ | ⟨hb, _⟩
  · exact he
  · omega

theorem exec_segr_of_present (h : b.toNat < s.numBuffers) (i : SegmentIndex) :
    exec (.segr b i) s = .next (respond (readSegment s b i) s) := by
  rcases execSegr_cases b i s with ⟨hb, _⟩ | ⟨_, he⟩
  · omega
  · exact he

theorem exec_sel_of_absent (h : s.numBuffers ≤ b.toNat) :
    exec (.sel b) s = .next (raiseFault .badBuffer (encode (.sel b)) s) := by
  rcases execSel_cases b s with ⟨_, he⟩ | ⟨hb, _⟩
  · exact he
  · omega

theorem exec_sel_of_present (h : b.toNat < s.numBuffers) : exec (.sel b) s = .next { s with act := b } := by
  rcases execSel_cases b s with ⟨hb, _⟩ | ⟨_, he⟩
  · omega
  · exact he

end Outcomes

/-- Settles O17: the three outcomes of SEGW, the memory of the legal one being `Memory.write`, read at its own key and elsewhere. -/
theorem segwStoresTheIntensity : Obligations.SegwStoresTheIntensity :=
  ⟨encode_segw, fun s b i d =>
    ⟨fun h => exec_segw_of_absent h i d, fun h hd => exec_segw_of_illegal h i hd, fun h hd =>
      ⟨Memory.write s.seg (segKey b i) d, exec_segw_of_legal h i hd, Memory.read_write_same _ _ _,
        fun _ ha => Memory.read_write_other _ _ ha⟩⟩⟩

/-- Settles O18: the two outcomes of SEGR. -/
theorem segrRespondsTheByte : Obligations.SegrRespondsTheByte :=
  ⟨encode_segr, fun _ _ i => ⟨fun h => exec_segr_of_absent h i, fun h => exec_segr_of_present h i⟩⟩

/-- Settles O19: the two outcomes of SEL. -/
theorem selSetsTheActiveBuffer : Obligations.SelSetsTheActiveBuffer :=
  ⟨encode_sel, fun _ _ => ⟨exec_sel_of_absent, exec_sel_of_present⟩⟩

end Sys2Proof.Proofs
end

/-! ## Proofs: the status and control commands (42_status_control.md R75 to R80) -/
section
namespace Sys2Proof.Proofs
open Sys2Proof.Machine

/-! ### The command words and the outcomes -/

theorem encode_stw (d m : BitVec 7) :
    encode (.stw d m) = 0x60000000#32 ||| m.zeroExtend 32 <<< 8 ||| d.zeroExtend 32 := by
  have hwiden (v : BitVec 7) : (v.zeroExtend 8).zeroExtend 32 = v.zeroExtend 32 :=
    BitVec.setWidth_setWidth (by omega)
  simp [encode, packWord_eq_or, hwiden]

@[simp] theorem exec_str (s : State) : exec .str s = .next (respond s.status s) := rfl

@[simp] theorem exec_stw (d m : BitVec 7) (s : State) :
    exec (.stw d m) s = .next { s with status := maskedWrite s.status (statusOperand m) (statusOperand d) } := rfl

@[simp] theorem exec_dtake (s : State) : exec .dtake s =
    .next (respond (flagByte (statusDONE s.status)) { s with status := clearDONE s.status }) := rfl

@[simp] theorem exec_ddis (s : State) :
    exec .ddis s = .next (emitFrame 0 { s with status := clearEN s.status }) := rfl

@[simp] theorem exec_rst (s : State) : exec .rst s = .next (resetBlock s) := rfl

/-! ### STATUS as each command leaves it -/

theorem clearDONE_eq (w : Byte) : clearDONE w = w &&& 0xEF :=
  BitVec.or_zero

/-- R49, R76: no operand of STW reaches bit 7. -/
theorem getLsbD_maskedWrite_statusOperand_seven (w : Byte) (m d : BitVec 7) :
    (maskedWrite w (statusOperand m) (statusOperand d)).getLsbD 7 = w.getLsbD 7 := by
  have hm : m.getLsbD 7 = false := BitVec.getLsbD_of_ge m 7 le_rfl
  rw [getLsbD_maskedWrite, getLsbD_statusOperand, hm]
  rfl

/-- R78: STR, STW and DTAKE write nothing but STATUS and the responses. -/
theorem eq_of_exec_statusCommand {i : Instr} {s t : State}
    (hi : i = .str ∨ i = .dtake ∨ ∃ d m, i = .stw d m) (h : exec i s = .next t) :
    ∃ (w : Byte) (rs : List Byte), t = { s with status := w, responses := rs } := by
  obtain rfl | rfl | ⟨d, m, rfl⟩ := hi <;> cases h <;> exact ⟨_, _, rfl⟩

/-! ### The statements -/

/-- Settles O24: STR is `respond` of STATUS. -/
theorem strRespondsStatus : Obligations.StrRespondsStatus :=
  ⟨rfl, exec_str⟩

/-- Settles O25: STW is the masked write, bit by bit, and its operands have no bit 7. -/
theorem stwWritesUnderTheMask : Obligations.StwWritesUnderTheMask := by
  refine ⟨encode_stw, fun s d m => ⟨_, exec_stw d m s, fun j _ => ?_, ?_⟩⟩
  · rw [getLsbD_maskedWrite, getLsbD_statusOperand, getLsbD_statusOperand]
  · exact getLsbD_maskedWrite_statusOperand_seven s.status m d

/-- Settles O26: the response is the flag before the clear, and the clear is `clearDONE`. -/
theorem dtakeTakesTheFlag : Obligations.DtakeTakesTheFlag := by
  refine ⟨rfl, fun s => ?_⟩
  rw [exec_dtake, clearDONE_eq]
  rfl

/-- Settles O27: STATUS and the responses are not among what is listed. -/
theorem statusCommandsLeaveTheRestAlone : Obligations.StatusCommandsLeaveTheRestAlone := by
  intro i s t hi h
  obtain ⟨w, rs, rfl⟩ := eq_of_exec_statusCommand hi h
  exact ⟨rfl, rfl, rfl, rfl, rfl, rfl, rfl⟩

/-- Settles O28: DDIS is `clearEN` and a blank frame. -/
theorem ddisBlanksAndHaltsRefresh : Obligations.DdisBlanksAndHaltsRefresh := by
  refine ⟨rfl, fun s => ?_⟩
  rw [exec_ddis, clearEN_eq]
  rfl

/-- Settles O29: RST is `resetBlock`, whose memory lists nothing. -/
theorem rstResetsTheBlock : Obligations.RstResetsTheBlock :=
  ⟨rfl, fun s => ⟨[], Memory.read_nil, exec_rst s⟩⟩

end Sys2Proof.Proofs
end

/-! ## Proofs: illegal commands (60_exceptions.md R101 to R103) -/
section
namespace Sys2Proof.Proofs
open Sys2Proof.Machine

/-! ### The bits that must be 0, as masks -/

/-- A range of bits is 0 when the mask of that range meets no bit of the word. -/
theorem extractLsb'_eq_zero_iff {m : Word} {lo n : Nat}
    (hm : ∀ j < 32, m.getLsbD j = decide (lo ≤ j ∧ j < lo + n)) (w : Word) :
    w.extractLsb' lo n = 0 ↔ w &&& m = 0 := by
  constructor
  · intro h
    refine BitVec.eq_of_getLsbD_eq fun j hj => ?_
    rw [BitVec.getLsbD_and, hm j hj]
    by_cases hin : lo ≤ j ∧ j < lo + n
    · have hbit := congrArg (fun v => v.getLsbD (j - lo)) h
      have hlt : j - lo < n := by omega
      simpa [hin.1, hin.2, hlt, -BitVec.getLsbD_eq_getElem] using hbit
    · simp [hin]
  · intro h
    refine BitVec.eq_of_getLsbD_eq fun i hi => ?_
    by_cases hj : lo + i < 32
    · have hbit := congrArg (fun v => v.getLsbD (lo + i)) h
      simpa [hi, hm _ hj, -BitVec.getLsbD_eq_getElem] using hbit
    · simp [BitVec.getLsbD_of_ge w (lo + i) (by omega), -BitVec.getLsbD_eq_getElem]

theorem fieldB_eq_zero_iff (w : Word) : fieldB w = 0 ↔ w &&& 0x03000000 = 0 :=
  extractLsb'_eq_zero_iff (by decide) w

theorem fieldS_eq_zero_iff (w : Word) : fieldS w = 0 ↔ w &&& 0x003F0000 = 0 :=
  extractLsb'_eq_zero_iff (by decide) w

theorem fieldM_eq_zero_iff (w : Word) : fieldM w = 0 ↔ w &&& 0x0000FF00 = 0 :=
  extractLsb'_eq_zero_iff (by decide) w

theorem fieldD_eq_zero_iff (w : Word) : fieldD w = 0 ↔ w &&& 0x000000FF = 0 :=
  extractLsb'_eq_zero_iff (by decide) w

/-- A mask of two parts is clear when both parts are. -/
theorem and_or_eq_zero_iff (w a b : Word) : w &&& (a ||| b) = 0 ↔ w &&& a = 0 ∧ w &&& b = 0 := by
  rw [BitVec.and_or_distrib_left]
  exact BitVec.or_eq_zero_iff

theorem reservedZero_iff (w : Word) : reservedZero w = true ↔ w &&& 0x0CC00000 = 0 := by
  rw [reservedZero, Bool.and_eq_true, beq_iff_eq, beq_iff_eq]
  exact (and_congr (extractLsb'_eq_zero_iff (m := 0x0C000000) (by decide) w)
    (extractLsb'_eq_zero_iff (m := 0x00C00000) (by decide) w)).trans (and_or_eq_zero_iff w _ _).symm

/-- R49, the row of the commands without an operand. -/
theorem noOperand_iff (w : Word) :
    (reservedZero w && (fieldB w == 0 && fieldS w == 0 && fieldM w == 0 && fieldD w == 0)) = true ↔
      w &&& 0x0FFFFFFF = 0 := by
  simp only [Bool.and_eq_true, beq_iff_eq, reservedZero_iff, fieldB_eq_zero_iff, fieldS_eq_zero_iff,
    fieldM_eq_zero_iff, fieldD_eq_zero_iff, ← and_or_eq_zero_iff]
  exact Iff.rfl

/-- R49, the row of SEGW. -/
theorem segwOperands_iff (w : Word) : (reservedZero w && fieldM w == 0) = true ↔ w &&& 0x0CC0FF00 = 0 := by
  simp only [Bool.and_eq_true, beq_iff_eq, reservedZero_iff, fieldM_eq_zero_iff, ← and_or_eq_zero_iff]
  exact Iff.rfl

/-- R49, the row of SEGR. -/
theorem segrOperands_iff (w : Word) :
    (reservedZero w && (fieldM w == 0 && fieldD w == 0)) = true ↔ w &&& 0x0CC0FFFF = 0 := by
  simp only [Bool.and_eq_true, beq_iff_eq, reservedZero_iff, fieldM_eq_zero_iff, fieldD_eq_zero_iff,
    ← and_or_eq_zero_iff]
  exact Iff.rfl

/-- R49, the row of SEL. -/
theorem selOperand_iff (w : Word) :
    (reservedZero w && (fieldS w == 0 && fieldM w == 0 && fieldD w == 0)) = true ↔ w &&& 0x0CFFFFFF = 0 := by
  simp only [Bool.and_eq_true, beq_iff_eq, reservedZero_iff, fieldS_eq_zero_iff, fieldM_eq_zero_iff,
    fieldD_eq_zero_iff, ← and_or_eq_zero_iff]
  exact Iff.rfl

/-- A byte of the word has its bit 7 clear when the mask of that bit meets no bit of the word. -/
theorem not_extractLsb'_seven_iff {m : Word} {lo : Nat}
    (hm : ∀ j < 32, m.getLsbD j = decide (lo + 7 ≤ j ∧ j < lo + 7 + 1)) (w : Word) :
    (w.extractLsb' lo 8).getLsbD 7 = false ↔ w &&& m = 0 := by
  rw [← extractLsb'_eq_zero_iff hm w]
  simp [BitVec.eq_of_getLsbD_eq_iff, -BitVec.getLsbD_eq_getElem]

/-- R49, the row of STW: B, S and bits 15 and 7. -/
theorem stwOperands_iff (w : Word) :
    (reservedZero w && (fieldB w == 0 && fieldS w == 0 && !(fieldM w).getLsbD 7 && !(fieldD w).getLsbD 7)) = true ↔
      w &&& 0x0FFF8080 = 0 := by
  have hM : (fieldM w).getLsbD 7 = false ↔ w &&& 0x00008000 = 0 := not_extractLsb'_seven_iff (by decide) w
  have hD : (fieldD w).getLsbD 7 = false ↔ w &&& 0x00000080 = 0 := not_extractLsb'_seven_iff (by decide) w
  simp only [Bool.and_eq_true, beq_iff_eq, Bool.not_eq_true', reservedZero_iff, fieldB_eq_zero_iff,
    fieldS_eq_zero_iff, hM, hD, ← and_or_eq_zero_iff]
  exact Iff.rfl

/-! ### The decoder in three cases -/

/-- R47: the opcodes that are not illegal. -/
theorem fieldOP_of_legalOpcode {w : Word} (h : ¬IllegalOpcode w) :
    fieldOP w = 1 ∨ fieldOP w = 2 ∨ fieldOP w = 3 ∨ fieldOP w = 4 ∨ fieldOP w = 5 ∨ fieldOP w = 6 ∨
      fieldOP w = 7 ∨ fieldOP w = 8 ∨ fieldOP w = 9 := by
  revert h
  unfold IllegalOpcode
  generalize fieldOP w = op
  revert op
  decide

/-- R50: the decoder's last arm takes the opcodes outside R47's table. -/
theorem decode_of_illegalOpcode {w : Word} (h : IllegalOpcode w) : decode w = .error .illegalOpcode := by
  unfold IllegalOpcode at h
  unfold decode
  split
  rotate_right
  · rfl
  all_goals omega

/-- What `legalWhen` answers, when its check is that a mask is clear and a word that passes is the command's own. -/
theorem legalWhen_cases {w m : Word} {z : Bool} {i : Instr} (hz : (reservedZero w && z) = true ↔ w &&& m = 0)
    (hi : (reservedZero w && z) = true → encode i = w) :
    (w &&& m ≠ 0 ∧ legalWhen w z i = .error .reservedBits) ∨
    (¬w &&& m ≠ 0 ∧ ∃ j, legalWhen w z i = .ok j ∧ encode j = w) := by
  by_cases hclear : (reservedZero w && z) = true
  · exact .inr ⟨not_not.2 (hz.1 hclear), i, if_pos hclear, hi hclear⟩
  · exact .inl ⟨fun h => hclear (hz.2 h), if_neg hclear⟩

/-- A word that sets no bit but those of OP is the word of its opcode alone. -/
theorem packWord_of_noOperand {w : Word} {op : BitVec 4} (hop : fieldOP w = op)
    (h : (reservedZero w && (fieldB w == 0 && fieldS w == 0 && fieldM w == 0 && fieldD w == 0)) = true) :
    packWord op 0 0 0 0 = w := by
  simp only [Bool.and_eq_true, beq_iff_eq] at h
  obtain ⟨hres, ⟨⟨hB, hS⟩, hM⟩, hD⟩ := h
  simpa only [hop, hB, hS, hM, hD] using packWord_fields w hres

theorem encode_segw_of_fields {w : Word} (hop : fieldOP w = 2) (h : (reservedZero w && fieldM w == 0) = true) :
    encode (.segw (fieldB w) (fieldS w) (fieldD w)) = w := by
  simp only [Bool.and_eq_true, beq_iff_eq] at h
  obtain ⟨hres, hM⟩ := h
  simpa only [encode, hop, hM] using packWord_fields w hres

theorem encode_segr_of_fields {w : Word} (hop : fieldOP w = 3)
    (h : (reservedZero w && (fieldM w == 0 && fieldD w == 0)) = true) :
    encode (.segr (fieldB w) (fieldS w)) = w := by
  simp only [Bool.and_eq_true, beq_iff_eq] at h
  obtain ⟨hres, hM, hD⟩ := h
  simpa only [encode, hop, hM, hD] using packWord_fields w hres

theorem encode_sel_of_fields {w : Word} (hop : fieldOP w = 4)
    (h : (reservedZero w && (fieldS w == 0 && fieldM w == 0 && fieldD w == 0)) = true) :
    encode (.sel (fieldB w)) = w := by
  simp only [Bool.and_eq_true, beq_iff_eq] at h
  obtain ⟨hres, ⟨hS, hM⟩, hD⟩ := h
  simpa only [encode, hop, hS, hM, hD] using packWord_fields w hres

/-- A byte whose bit 7 is 0 is the widening of its low seven bits. -/
theorem zeroExtend_truncate_of_seven {v : Byte} (h : v.getLsbD 7 = false) : (v.truncate 7).zeroExtend 8 = v := by
  refine BitVec.eq_of_getLsbD_eq fun j hj => ?_
  obtain hlt | rfl : j < 7 ∨ j = 7 := by omega
  · simp [hj, hlt, -BitVec.getLsbD_eq_getElem]
  · simp [h, -BitVec.getLsbD_eq_getElem]

theorem encode_stw_of_fields {w : Word} (hop : fieldOP w = 6)
    (h : (reservedZero w &&
      (fieldB w == 0 && fieldS w == 0 && !(fieldM w).getLsbD 7 && !(fieldD w).getLsbD 7)) = true) :
    encode (.stw ((fieldD w).truncate 7) ((fieldM w).truncate 7)) = w := by
  simp only [Bool.and_eq_true, beq_iff_eq, Bool.not_eq_true'] at h
  obtain ⟨hres, ⟨⟨hB, hS⟩, hM⟩, hD⟩ := h
  rw [encode, zeroExtend_truncate_of_seven hM, zeroExtend_truncate_of_seven hD]
  simpa only [hop, hB, hS] using packWord_fields w hres

/-- R48, R49: with an opcode of R47's table, a word sets a bit that must be 0, or it is a command's own word. -/
theorem decode_cases_of_legalOpcode {w : Word} (h : ¬IllegalOpcode w) :
    (SetsReservedBits w ∧ decode w = .error .reservedBits) ∨
    (¬SetsReservedBits w ∧ ∃ i, decode w = .ok i ∧ encode i = w) := by
  unfold SetsReservedBits decode
  rcases fieldOP_of_legalOpcode h with hop | hop | hop | hop | hop | hop | hop | hop | hop <;> rw [hop]
  · exact legalWhen_cases (i := .tick) (noOperand_iff w) (packWord_of_noOperand hop)
  · exact legalWhen_cases (segwOperands_iff w) (encode_segw_of_fields hop)
  · exact legalWhen_cases (segrOperands_iff w) (encode_segr_of_fields hop)
  · exact legalWhen_cases (selOperand_iff w) (encode_sel_of_fields hop)
  · exact legalWhen_cases (i := .str) (noOperand_iff w) (packWord_of_noOperand hop)
  · exact legalWhen_cases (stwOperands_iff w) (encode_stw_of_fields hop)
  · exact legalWhen_cases (i := .dtake) (noOperand_iff w) (packWord_of_noOperand hop)
  · exact legalWhen_cases (i := .ddis) (noOperand_iff w) (packWord_of_noOperand hop)
  · exact legalWhen_cases (i := .rst) (noOperand_iff w) (packWord_of_noOperand hop)

theorem decode_of_setsReservedBits {w : Word} (hop : ¬IllegalOpcode w) (hbits : SetsReservedBits w) :
    decode w = .error .reservedBits := by
  rcases decode_cases_of_legalOpcode hop with ⟨_, hdec⟩ | ⟨hclear, _⟩
  · exact hdec
  · exact absurd hbits hclear

theorem exists_decode_of_clearBits {w : Word} (hop : ¬IllegalOpcode w) (hbits : ¬SetsReservedBits w) :
    ∃ i, decode w = .ok i ∧ encode i = w := by
  rcases decode_cases_of_legalOpcode hop with ⟨hset, _⟩ | ⟨_, hdec⟩
  · exact absurd hset hbits
  · exact hdec

/-! ### Legality by value, of the word and of the command -/

theorem namesAbsentBuffer_encode (n : Nat) (i : Instr) :
    NamesAbsentBuffer n (encode i) ↔ i.bufferExists n = false := by
  cases i <;> simp [NamesAbsentBuffer, encode, fieldOP_packWord, fieldB_packWord, Instr.bufferExists]

theorem storesIllegalValue_encode (i : Instr) : StoresIllegalValue (encode i) ↔ i.valueLegal = false := by
  cases i with
  | segw b j d =>
    have hv : (Instr.segw b j d).valueLegal = false ↔ 9 < d.toNat := decide_eq_false_iff_not.trans not_le
    simp [StoresIllegalValue, encode, fieldOP_packWord, fieldD_packWord, hv]
  | _ => simp [StoresIllegalValue, encode, fieldOP_packWord, Instr.valueLegal]

/-- R101's third case: SEGW, SEGR and SEL record an absent buffer; no other command names one. -/
theorem exec_of_bufferAbsent {i : Instr} {s : State} (h : i.bufferExists s.numBuffers = false) :
    exec i s = .next (raiseFault .badBuffer (encode i) s) := by
  cases i with
  | segw b j d => exact exec_segw_of_absent (not_lt.1 (of_decide_eq_false h)) j d
  | segr b j => exact exec_segr_of_absent (not_lt.1 (of_decide_eq_false h)) j
  | sel b => exact exec_sel_of_absent (not_lt.1 (of_decide_eq_false h))
  | _ => cases h

/-- R101's fourth case: SEGW records an illegal value; no other command stores one. -/
theorem exec_of_valueIllegal {i : Instr} {s : State} (hb : i.bufferExists s.numBuffers = true)
    (hv : i.valueLegal = false) : exec i s = .next (raiseFault .badValue (encode i) s) := by
  cases i with
  | segw b j d => exact exec_segw_of_illegal (of_decide_eq_true hb) j (not_le.1 (of_decide_eq_false hv))
  | _ => cases hv

/-- R101: a command that names an existing buffer and stores a legal value records no fault. -/
theorem faults_of_exec {i : Instr} {s t : State} (hb : i.bufferExists s.numBuffers = true)
    (hv : i.valueLegal = true) (h : exec i s = .next t) : t.faults = s.faults := by
  cases i with
  | tick =>
    rcases execTick_cases h with ⟨_, rfl⟩ | ⟨_, _, rfl⟩
    · rfl
    · simp
  | segw b j d =>
    rw [exec_segw_of_legal (of_decide_eq_true hb) j (of_decide_eq_true hv)] at h
    cases h; rfl
  | segr b j =>
    rw [exec_segr_of_present (of_decide_eq_true hb) j] at h
    cases h; rfl
  | sel b =>
    rw [exec_sel_of_present (of_decide_eq_true hb)] at h
    cases h; rfl
  | _ => cases h; rfl

/-- Settles O6: the decoder finds the first two codes; the command it decodes, whose word is the one given, finds the last two. -/
theorem illegalWordIsRecordedAndIgnored : Obligations.IllegalWordIsRecordedAndIgnored := by
  refine ⟨⟨rfl, rfl, rfl, rfl⟩, fun w s => ⟨fun hop => ?_, fun hop hbits => ?_, fun hop hbits hbuf => ?_,
    fun hop hbits hbuf hval => ?_, fun hop hbits hbuf hval t ht => ?_⟩⟩
  · exact execWord_error (decode_of_illegalOpcode hop) s
  · exact execWord_error (decode_of_setsReservedBits hop hbits) s
  · obtain ⟨i, hdec, rfl⟩ := exists_decode_of_clearBits hop hbits
    rw [namesAbsentBuffer_encode] at hbuf
    exact (execWord_ok hdec s).trans (exec_of_bufferAbsent hbuf)
  · obtain ⟨i, hdec, rfl⟩ := exists_decode_of_clearBits hop hbits
    rw [namesAbsentBuffer_encode, Bool.not_eq_false] at hbuf
    rw [storesIllegalValue_encode] at hval
    exact (execWord_ok hdec s).trans (exec_of_valueIllegal hbuf hval)
  · obtain ⟨i, hdec, rfl⟩ := exists_decode_of_clearBits hop hbits
    rw [namesAbsentBuffer_encode, Bool.not_eq_false] at hbuf
    rw [storesIllegalValue_encode, Bool.not_eq_false] at hval
    exact faults_of_exec hbuf hval ((execWord_ok hdec s).symm.trans ht)

end Sys2Proof.Proofs
end

/-! ## Proofs: power-on (70_reset_and_hazards.md R120) -/
section
namespace Sys2Proof.Proofs
open Sys2Proof.Machine

/-- The memory at power-on lists no address, and an unlisted one reads as 0 (R120). -/
@[simp] theorem readSegment_powerOn (n : Nat) (b : BufferIndex) (i : SegmentIndex) :
    readSegment (State.powerOn n) b i = 0 := Memory.read_nil (segKey b i)

/-- Settles O30: the memory reads as 0 everywhere, and the other elements are the fields of the power-on state. -/
theorem powerOnValues : Obligations.PowerOnValues :=
  ⟨State.powerOn_numBuffers Config.defaultNumBuffers, fun n =>
    ⟨readSegment_powerOn n, State.powerOn_act n, State.powerOn_cnt n, State.powerOn_status n, State.powerOn_latch n,
      State.powerOn_frames n, State.powerOn_faults n⟩⟩

end Sys2Proof.Proofs
end

/-! ## Proofs: decoding and encoding (30_encoding.md R45 to R51) -/
section
namespace Sys2Proof.Proofs
open Sys2Proof.Machine

/-! ### Decoding an encoded command -/

/-- The widening of seven bits to a byte has bit 7 clear. -/
theorem getLsbD_zeroExtend_seven (v : BitVec 7) : (v.zeroExtend 8).getLsbD 7 = false := by
  simp [-BitVec.getLsbD_eq_getElem]

/-- A packed word passes the check for the reserved bits, so `legalWhen` turns on the unused fields alone. -/
theorem legalWhen_packWord {op : BitVec 4} {b : BufferIndex} {j : SegmentIndex} {m d : Byte} {z : Bool} {i : Instr}
    (hz : z = true) : legalWhen (packWord op b j m d) z i = .ok i := by
  rw [legalWhen, reservedZero_packWord, hz]
  rfl

/-- Settles O2: each command's fields, read back from its packed word, are its opcode, its operands, and 0 elsewhere. -/
theorem decodeOfEncodeIsTheCommand : Obligations.DecodeOfEncodeIsTheCommand := by
  intro i
  cases i <;> simp only [encode, decode, fieldOP_packWord, fieldB_packWord, fieldS_packWord, fieldM_packWord,
    fieldD_packWord]
  case stw d m =>
    have hnarrow (v : BitVec 7) : (v.zeroExtend 8).truncate 7 = v := by simp
    rw [hnarrow, hnarrow]
    exact legalWhen_packWord (by rw [getLsbD_zeroExtend_seven, getLsbD_zeroExtend_seven]; rfl)
  all_goals exact legalWhen_packWord rfl

/-- Settles O3: a word with an illegal opcode or a set bit that must be 0 does not decode; any other is its command's
own. -/
theorem encodeOfDecodeIsTheWord : Obligations.EncodeOfDecodeIsTheWord := by
  intro w i h
  by_cases hop : IllegalOpcode w
  · rw [decode_of_illegalOpcode hop] at h
    cases h
  · rcases decode_cases_of_legalOpcode hop with ⟨_, herr⟩ | ⟨_, j, hj, hw⟩
    · rw [herr] at h
      cases h
    · rw [hj] at h
      cases h
      exact hw

theorem decode_encode (i : Instr) : decode (encode i) = .ok i := decodeOfEncodeIsTheCommand i

/-- A word is the command `i` exactly when it is the word of `i`. -/
theorem decode_eq_ok_iff {w : Word} {i : Instr} : decode w = .ok i ↔ encode i = w :=
  ⟨encodeOfDecodeIsTheWord w i, fun h => h ▸ decode_encode i⟩

/-- A command's word has that command's meaning. -/
@[simp] theorem execWord_encode (i : Instr) (s : State) : execWord (encode i) s = exec i s :=
  execWord_ok (decode_encode i) s

/-! ### The mask and match of each command (R49) -/

/-- The bits of a word from `lo` up, put back in their place, are the word under the mask of those bits. -/
theorem extractLsb'_zeroExtend_shiftLeft {m : Word} {lo n : Nat}
    (hm : ∀ j < 32, m.getLsbD j = decide (lo ≤ j ∧ j < lo + n)) (w : Word) :
    (w.extractLsb' lo n).zeroExtend 32 <<< lo = w &&& m := by
  refine BitVec.eq_of_getLsbD_eq fun j hj => ?_
  rw [getLsbD_zeroExtend_shiftLeft _ _ hj, BitVec.getLsbD_and, hm j hj, BitVec.getLsbD_extractLsb']
  by_cases hlo : lo ≤ j
  · have hback : lo + (j - lo) = j := by omega
    have hrange : j - lo < n ↔ j < lo + n := by omega
    simp [hlo, hback, hrange, Bool.and_comm, -BitVec.getLsbD_eq_getElem]
  · simp [hlo]

/-- A word is the match and its own bits outside the mask exactly when, under the mask, it is the match. -/
theorem or_and_eq_iff {m k n : Word} (hk : k &&& m = k) (hnm : n &&& m = 0#32) (hall : n ||| m = BitVec.allOnes 32)
    (w : Word) :
    k ||| w &&& n = w ↔ w &&& m = k := by
  have hsplit : w &&& m ||| w &&& n = w := by
    rw [← BitVec.and_or_distrib_left, BitVec.or_comm, hall, BitVec.and_allOnes]
  constructor
  · intro h
    calc w &&& m = (k ||| w &&& n) &&& m := by rw [h]
      _ = k &&& m ||| w &&& (n &&& m) := by rw [BitVec.and_or_distrib_right, BitVec.and_assoc]
      _ = k := by rw [hk, hnm, BitVec.and_zero, BitVec.or_zero]
  · intro h
    rw [← h, hsplit]

theorem encode_segw_of_extracts (w : Word) :
    encode (.segw (w.extractLsb' 24 2) (w.extractLsb' 16 6) (w.extractLsb' 0 8)) =
      0x20000000 ||| w &&& 0x033F00FF := by
  rw [encode_segw, ← BitVec.shiftLeft_zero ((w.extractLsb' 0 8).zeroExtend 32),
    extractLsb'_zeroExtend_shiftLeft (m := 0x03000000) (by decide),
    extractLsb'_zeroExtend_shiftLeft (m := 0x003F0000) (by decide),
    extractLsb'_zeroExtend_shiftLeft (m := 0x000000FF) (by decide), BitVec.or_assoc, BitVec.or_assoc,
    ← BitVec.and_or_distrib_left, ← BitVec.and_or_distrib_left]
  rfl

theorem encode_segr_of_extracts (w : Word) :
    encode (.segr (w.extractLsb' 24 2) (w.extractLsb' 16 6)) = 0x30000000 ||| w &&& 0x033F0000 := by
  rw [encode_segr, extractLsb'_zeroExtend_shiftLeft (m := 0x03000000) (by decide),
    extractLsb'_zeroExtend_shiftLeft (m := 0x003F0000) (by decide), BitVec.or_assoc, ← BitVec.and_or_distrib_left]
  rfl

theorem encode_sel_of_extracts (w : Word) : encode (.sel (w.extractLsb' 24 2)) = 0x40000000 ||| w &&& 0x03000000 := by
  rw [encode_sel, extractLsb'_zeroExtend_shiftLeft (m := 0x03000000) (by decide)]
  rfl

theorem encode_stw_of_extracts (w : Word) :
    encode (.stw (w.extractLsb' 0 7) (w.extractLsb' 8 7)) = 0x60000000 ||| w &&& 0x00007F7F := by
  rw [encode_stw, ← BitVec.shiftLeft_zero ((w.extractLsb' 0 7).zeroExtend 32),
    extractLsb'_zeroExtend_shiftLeft (m := 0x00007F00) (by decide),
    extractLsb'_zeroExtend_shiftLeft (m := 0x0000007F) (by decide),
    BitVec.or_assoc, ← BitVec.and_or_distrib_left]
  rfl

/-- The row of a command without an operand: its word alone. -/
theorem decode_eq_ok_iff_and_allOnes {i : Instr} {k : Word} (hk : encode i = k) (w : Word) :
    decode w = .ok i ↔ w &&& 0xFFFFFFFF = k := by
  rw [decode_eq_ok_iff, hk, show w &&& 0xFFFFFFFF = w from BitVec.and_allOnes, eq_comm]

/-- Settles O4: a word is a command when it is that command's word (`decode_eq_ok_iff`), which is the match and the
bits of the operands. -/
theorem wordIsCommandExactlyByMaskAndMatch : Obligations.WordIsCommandExactlyByMaskAndMatch := by
  intro w
  refine ⟨decode_eq_ok_iff_and_allOnes rfl w, ?_, ?_, ?_, decode_eq_ok_iff_and_allOnes rfl w, ?_,
    decode_eq_ok_iff_and_allOnes rfl w, decode_eq_ok_iff_and_allOnes rfl w, decode_eq_ok_iff_and_allOnes rfl w⟩
  · rw [decode_eq_ok_iff, encode_segw_of_extracts]
    exact or_and_eq_iff rfl rfl rfl w
  · rw [decode_eq_ok_iff, encode_segr_of_extracts]
    exact or_and_eq_iff rfl rfl rfl w
  · rw [decode_eq_ok_iff, encode_sel_of_extracts]
    exact or_and_eq_iff rfl rfl rfl w
  · rw [decode_eq_ok_iff, encode_stw_of_extracts]
    exact or_and_eq_iff rfl rfl rfl w

/-- Settles O1: each word decodes by evaluation. -/
theorem tableWordsDecode : Obligations.TableWordsDecode := by
  unfold Obligations.TableWordsDecode
  decide

/-! ### The assembler (R54) -/

/-- A number that fits its field is the field's value, as a word of any wider size. -/
theorem zeroExtend_ofNat_of_lt {v n : Nat} (h : v < 2 ^ n) : (BitVec.ofNat n v).zeroExtend 32 = BitVec.ofNat 32 v := by
  apply BitVec.eq_of_toNat_eq
  simp [Nat.mod_eq_of_lt h]

/-- The assembler gives the word of the line's command, under the check that the operands fit. -/
theorem assemble_eq {l : AsmLine} {i : Instr} (hi : asmInstr l = some i) :
    assemble l = if l.fits then some (encode i) else none := by
  unfold assemble
  rw [hi]
  cases l with
  | word w => cases hi
  | _ => rfl

/-- A row of R54's tables: `p` is the condition that the operands fit, and `w` the word where they do. -/
theorem assemble_of_fits {l : AsmLine} {i : Instr} {w : Word} {p : Prop} [Decidable p] (hi : asmInstr l = some i)
    (hp : l.fits = true ↔ p) (hw : p → encode i = w) : assemble l = if p then some w else none := by
  rw [assemble_eq hi]
  by_cases h : p
  · rw [if_pos (hp.2 h), if_pos h, hw h]
  · rw [if_neg (hp.not.2 h), if_neg h]

theorem encode_segw_ofNat {b i d : Nat} (h : b ≤ 3 ∧ i ≤ 63 ∧ d ≤ 255) :
    encode (.segw (BitVec.ofNat 2 b) (BitVec.ofNat 6 i) (BitVec.ofNat 8 d)) =
      0x20000000#32 ||| BitVec.ofNat 32 b <<< 24 ||| BitVec.ofNat 32 i <<< 16 ||| BitVec.ofNat 32 d := by
  rw [encode_segw, zeroExtend_ofNat_of_lt (by omega), zeroExtend_ofNat_of_lt (by omega),
    zeroExtend_ofNat_of_lt (by omega)]

theorem encode_segr_ofNat {b i : Nat} (h : b ≤ 3 ∧ i ≤ 63) :
    encode (.segr (BitVec.ofNat 2 b) (BitVec.ofNat 6 i)) =
      0x30000000#32 ||| BitVec.ofNat 32 b <<< 24 ||| BitVec.ofNat 32 i <<< 16 := by
  rw [encode_segr, zeroExtend_ofNat_of_lt (by omega), zeroExtend_ofNat_of_lt (by omega)]

theorem encode_sel_ofNat {b : Nat} (h : b ≤ 3) :
    encode (.sel (BitVec.ofNat 2 b)) = 0x40000000#32 ||| BitVec.ofNat 32 b <<< 24 := by
  rw [encode_sel, zeroExtend_ofNat_of_lt (by omega)]

theorem encode_stw_ofNat {d m : Nat} (h : d ≤ 127 ∧ m ≤ 127) :
    encode (.stw (BitVec.ofNat 7 d) (BitVec.ofNat 7 m)) =
      0x60000000#32 ||| BitVec.ofNat 32 m <<< 8 ||| BitVec.ofNat 32 d := by
  rw [encode_stw, zeroExtend_ofNat_of_lt (by omega), zeroExtend_ofNat_of_lt (by omega)]

theorem encode_setstep_ofNat {n : Nat} (h : n ≤ 3) :
    encode (.stw (BitVec.ofNat 7 n <<< 2) 0x0C) = 0x60000C00#32 ||| BitVec.ofNat 32 n <<< 2 := by
  interval_cases n <;> rfl

/-- Settles O5: the lines without an operand by evaluation; the others by the word of their command's fields. -/
theorem assemblerWordsAreTheTables : Obligations.AssemblerWordsAreTheTables := by
  refine ⟨rfl, fun b i d => ?_, fun b i => ?_, fun b => ?_, rfl, fun d m => ?_, rfl, rfl, rfl, rfl, rfl, rfl, rfl, rfl,
    rfl, fun r => ?_, fun n => ?_, fun b => ?_⟩
  · exact assemble_of_fits rfl (by simp [AsmLine.fits, and_assoc]) encode_segw_ofNat
  · exact assemble_of_fits rfl (by simp [AsmLine.fits]) encode_segr_ofNat
  · exact assemble_of_fits rfl (by simp [AsmLine.fits]) encode_sel_ofNat
  · exact assemble_of_fits rfl (by simp [AsmLine.fits]) encode_stw_ofNat
  · exact assemble_of_fits rfl (by simp [AsmLine.fits]) fun h => encode_stw_ofNat (m := 3) (by omega)
  · exact assemble_of_fits rfl (by simp [AsmLine.fits]) encode_setstep_ofNat
  · exact assemble_of_fits rfl (by simp [AsmLine.fits]) encode_sel_ofNat

end Sys2Proof.Proofs
end

/-! ## Proofs: what a command can do, and the legal states (10_state.md R27) -/
section
namespace Sys2Proof.Proofs
open Sys2Proof.Machine

/-! ### The effects of the commands -/

/-- What a command that has a next state did to the block: one constructor for each branch of the meanings (R61 to
R65, R70 to R80, R101). -/
inductive Effect : Instr → State → State → Prop where
  | tickOff {s : State} (hen : statusEN s.status = false) : Effect .tick s s
  | tickOn {s : State} (hen : statusEN s.status = true) (hdef : refreshDefined s = true) :
      Effect .tick s (advanceCounter (emitFrame (activeFrame s) s))
  | badBuffer {i : Instr} {s : State} (hb : i.bufferExists s.numBuffers = false) :
      Effect i s (raiseFault .badBuffer (encode i) s)
  | badValue {i : Instr} {s : State} (hb : i.bufferExists s.numBuffers = true) (hv : i.valueLegal = false) :
      Effect i s (raiseFault .badValue (encode i) s)
  | segw {b : BufferIndex} {d : Byte} {s : State} (hb : b.toNat < s.numBuffers) (j : SegmentIndex) (hd : d.toNat ≤ 9) :
      Effect (.segw b j d) s (writeSegment s b j d)
  | segr {b : BufferIndex} {s : State} (hb : b.toNat < s.numBuffers) (j : SegmentIndex) :
      Effect (.segr b j) s (respond (readSegment s b j) s)
  | sel {b : BufferIndex} {s : State} (hb : b.toNat < s.numBuffers) : Effect (.sel b) s { s with act := b }
  | str (s : State) : Effect .str s (respond s.status s)
  | stw (d m : BitVec 7) (s : State) :
      Effect (.stw d m) s { s with status := maskedWrite s.status (statusOperand m) (statusOperand d) }
  | dtake (s : State) :
      Effect .dtake s (respond (flagByte (statusDONE s.status)) { s with status := clearDONE s.status })
  | ddis (s : State) : Effect .ddis s (emitFrame 0 { s with status := clearEN s.status })
  | rst (s : State) : Effect .rst s (resetBlock s)

/-- The one inversion of `exec`: a next state is the effect of a branch. -/
theorem Effect.of_exec {i : Instr} {s t : State} (h : exec i s = .next t) : Effect i s t := by
  cases hb : i.bufferExists s.numBuffers with
  | false =>
    rw [exec_of_bufferAbsent hb] at h
    cases h
    exact .badBuffer hb
  | true =>
    cases hv : i.valueLegal with
    | false =>
      rw [exec_of_valueIllegal hb hv] at h
      cases h
      exact .badValue hb hv
    | true =>
      cases i with
      | tick =>
        rcases execTick_cases h with ⟨hen, rfl⟩ | ⟨hen, hdef, rfl⟩
        · exact .tickOff hen
        · exact .tickOn hen hdef
      | segw b j d =>
        rw [exec_segw_of_legal (of_decide_eq_true hb) j (of_decide_eq_true hv)] at h
        cases h
        exact .segw (of_decide_eq_true hb) j (of_decide_eq_true hv)
      | segr b j =>
        rw [exec_segr_of_present (of_decide_eq_true hb) j] at h
        cases h
        exact .segr (of_decide_eq_true hb) j
      | sel b =>
        rw [exec_sel_of_present (of_decide_eq_true hb)] at h
        cases h
        exact .sel (of_decide_eq_true hb)
      | str => cases h; exact .str s
      | stw d m => cases h; exact .stw d m s
      | dtake => cases h; exact .dtake s
      | ddis => cases h; exact .ddis s
      | rst => cases h; exact .rst s

/-- The same of a command word: the effect of its command, or the record of an illegal word (R101, R102). -/
theorem effect_of_execWord {w : Word} {s t : State} (h : execWord w s = .next t) :
    (∃ i, decode w = .ok i ∧ Effect i s t) ∨ (∃ c, decode w = .error c ∧ t = raiseFault c w s) := by
  cases hw : decode w with
  | ok i =>
    rw [execWord_ok hw] at h
    exact .inl ⟨i, rfl, .of_exec h⟩
  | error c =>
    rw [execWord_error hw] at h
    cases h
    exact .inr ⟨c, rfl, rfl⟩

/-- Only an enabled TICK can be without a next state, and only where the refresh is not defined. -/
theorem exists_exec_eq_next {s : State} (hdef : refreshDefined s = true) (i : Instr) : ∃ t, exec i s = .next t := by
  cases i with
  | tick =>
    cases hen : statusEN s.status with
    | false => exact ⟨_, execTick_disabled hen⟩
    | true => exact ⟨_, execTick_enabled hen hdef⟩
  | segw b j d =>
    rcases execSegw_cases b j d s with ⟨_, h⟩ | ⟨_, _, h⟩ | ⟨_, _, h⟩ <;> exact ⟨_, h⟩
  | segr b j =>
    rcases execSegr_cases b j s with ⟨_, h⟩ | ⟨_, h⟩ <;> exact ⟨_, h⟩
  | sel b =>
    rcases execSel_cases b s with ⟨_, h⟩ | ⟨_, h⟩ <;> exact ⟨_, h⟩
  | str => exact ⟨_, exec_str s⟩
  | stw d m => exact ⟨_, exec_stw d m s⟩
  | dtake => exact ⟨_, exec_dtake s⟩
  | ddis => exact ⟨_, exec_ddis s⟩
  | rst => exact ⟨_, exec_rst s⟩

theorem exists_execWord_eq_next {s : State} (hdef : refreshDefined s = true) (w : Word) :
    ∃ t, execWord w s = .next t := by
  cases hw : decode w with
  | ok i => rw [execWord_ok hw]; exact exists_exec_eq_next hdef i
  | error c => exact ⟨_, execWord_error hw s⟩

/-! ### The legal states -/

/-- A memory reads as 0 or as a byte it lists. -/
theorem toNat_read_le_of_forall_mem {m : Memory} {n : Nat} (h : ∀ cell ∈ m, cell.2.toNat ≤ n) (a : Nat) :
    (Memory.read m a).toNat ≤ n := by
  by_cases hz : Memory.read m a = 0
  · rw [hz]
    exact Nat.zero_le n
  · exact h _ (Memory.mem_of_read_ne hz)

/-- Settles O33: a byte that is not 0 is listed, and a legal state lists none above 9. -/
theorem segmentBytesAreIntensities : Obligations.SegmentBytesAreIntensities := by
  intro s b i h
  obtain ⟨_, _, hcell, _⟩ := h
  exact toNat_read_le_of_forall_mem (fun cell hc => (hcell cell hc).2) _

/-- R65 keeps CNT in 0..8, and bit 7 of STATUS. -/
theorem legal_advanceCounter {s : State} (h : s.Legal) : (advanceCounter s).Legal := by
  obtain ⟨hn, hwf, hcell, hact, hcnt, hst⟩ := h
  rcases advanceCounter_cases s with ⟨_, he⟩ | ⟨hne, he⟩ <;> rw [he]
  · refine ⟨hn, hwf, hcell, hact, Nat.zero_le 8, ?_⟩
    show (statusAfterWrap s.status).getLsbD 7 = false
    rw [getLsbD_statusAfterWrap, hst]
    rfl
  · refine ⟨hn, hwf, hcell, hact, ?_, hst⟩
    show (s.cnt + 1).toNat ≤ 8
    rw [BitVec.toNat_add]
    exact (Nat.mod_le _ _).trans (by simp; omega)

/-- A write of an intensity to an existing buffer keeps the memory's canonical form and its bounds. -/
theorem legal_writeSegment {s : State} (h : s.Legal) {b : BufferIndex} (hb : b.toNat < s.numBuffers) (j : SegmentIndex)
    {d : Byte} (hd : d.toNat ≤ 9) : (writeSegment s b j d).Legal := by
  obtain ⟨hn, hwf, hcell, hrest⟩ := h
  refine ⟨hn, wf_writeSegment hwf b j d, fun cell hc => ?_, hrest⟩
  rcases Memory.mem_write hc with rfl | hold
  · exact ⟨segKey_lt hb j, hd⟩
  · exact hcell cell hold

theorem legal_withStatus {s : State} (h : s.Legal) {w : Byte} (hw : w.getLsbD 7 = s.status.getLsbD 7) :
    State.Legal { s with status := w } := by
  obtain ⟨hn, hwf, hcell, hact, hcnt, hst⟩ := h
  exact ⟨hn, hwf, hcell, hact, hcnt, hw.trans hst⟩

theorem legal_resetBlock {s : State} (h : s.Legal) : (resetBlock s).Legal := by
  obtain ⟨hn, _⟩ := h
  exact ⟨hn, rfl, fun _ hc => absurd hc (List.not_mem_nil), hn.1, Nat.zero_le 8, BitVec.getLsbD_zero⟩

/-- R27: every command keeps the legal states. -/
theorem Effect.legal {i : Instr} {s t : State} (e : Effect i s t) (h : s.Legal) : t.Legal := by
  cases e with
  | tickOff => exact h
  | tickOn => exact legal_advanceCounter (s := emitFrame (activeFrame s) s) h
  | badBuffer => exact h
  | badValue => exact h
  | segw hb j hd => exact legal_writeSegment h hb j hd
  | segr => exact h
  | sel hb =>
    obtain ⟨hn, hwf, hcell, _, hrest⟩ := h
    exact ⟨hn, hwf, hcell, hb, hrest⟩
  | str => exact h
  | stw d m => exact legal_withStatus h (getLsbD_maskedWrite_statusOperand_seven s.status m d)
  | dtake => exact legal_withStatus h (getLsbD_clearDONE _ 7)
  | ddis => exact legal_withStatus h (getLsbD_clearEN _ 7)
  | rst => exact legal_resetBlock h

theorem legal_of_execWord {w : Word} {s t : State} (h : s.Legal) (hw : execWord w s = .next t) : t.Legal := by
  rcases effect_of_execWord hw with ⟨i, _, e⟩ | ⟨c, _, rfl⟩
  · exact e.legal h
  · exact h

theorem legal_of_stepWith {pick : Nat → Agent} {s t : State} (h : s.Legal) (hs : stepWith pick s = .next t) :
    t.Legal := by
  obtain ⟨w, v, hv, ht⟩ := stepWith_word hs
  rw [ht]
  exact (legal_of_execWord h hv).withAgents _

/-- Settles O32: a step executes one command word, and no command leaves the legal states. -/
theorem stepKeepsLegalStates : Obligations.StepKeepsLegalStates :=
  fun _ _ h hs => legal_of_stepWith h hs

/-- Settles O31: the power-on state lists no segment, and no procedure runs in it. -/
theorem powerOnMeetsTheInvariants : Obligations.PowerOnMeetsTheInvariants := by
  intro n hpos hle
  refine ⟨⟨⟨⟨hpos, hle⟩, Memory.wf_nil, fun _ hc => absurd hc List.not_mem_nil, hpos, Nat.zero_le 8,
    BitVec.getLsbD_zero⟩, rfl⟩,
    fun _ hw => absurd hw List.not_mem_nil, trivial⟩

/-- Settles O34: the refresh is defined in a legal state, and a command that is legal by value records nothing. -/
theorem everyCommandCompletesInLegalStates : Obligations.EveryCommandCompletesInLegalStates := by
  intro s i h
  obtain ⟨t, ht⟩ := exists_exec_eq_next h.refreshDefined i
  refine ⟨t, ht, fun hwf => ?_⟩
  rw [Instr.wellFormed, Bool.and_eq_true] at hwf
  exact faults_of_exec hwf.1 hwf.2 ht

/-- Settles O9: outside its launch states the refresh is not defined. -/
theorem tickHasNoMeaningOutsideLaunchStates : Obligations.TickHasNoMeaningOutsideLaunchStates := by
  intro s hen hout
  have hundef : ¬refreshDefined s = true := by
    rw [refreshDefined_iff]
    omega
  rw [exec_tick, execTick, statusEN, if_pos hen, if_neg hundef]

end Sys2Proof.Proofs
end

/-! ## Proofs: what each command writes, and the records (10_state.md sections 1 to 4, 60_exceptions.md R110) -/
section
namespace Sys2Proof.Proofs
open Sys2Proof.Machine

/-! ### The registers one by one -/

section Registers
variable {i : Instr} {s t : State}

theorem Effect.seg (e : Effect i s t) : t.seg = s.seg ∨ i = .rst ∨ ∃ b j d, i = .segw b j d := by
  cases e with
  | segw hb j hd => exact .inr (.inr ⟨_, j, _, rfl⟩)
  | rst => exact .inr (.inl rfl)
  | tickOn => exact .inl (advanceCounter_seg _)
  | _ => exact .inl rfl

theorem Effect.act (e : Effect i s t) : t.act = s.act ∨ i = .rst ∨ ∃ b, i = .sel b := by
  cases e with
  | sel hb => exact .inr (.inr ⟨_, rfl⟩)
  | rst => exact .inr (.inl rfl)
  | tickOn => exact .inl (advanceCounter_act _)
  | _ => exact .inl rfl

theorem Effect.cnt (e : Effect i s t) : t.cnt = s.cnt ∨ i = .rst ∨ i = .tick := by
  cases e with
  | rst => exact .inr (.inl rfl)
  | tickOff => exact .inr (.inr rfl)
  | tickOn => exact .inr (.inr rfl)
  | _ => exact .inl rfl

/-- Every update of STATUS that a command makes. -/
theorem Effect.status (e : Effect i s t) :
    t.status = s.status ∨
    (i = .tick ∧ s.status.getLsbD 6 = true ∧ s.cnt.toNat = 8 ∧ t.status = statusAfterWrap s.status) ∨
    (∃ d m, i = .stw d m ∧ t.status = maskedWrite s.status (statusOperand m) (statusOperand d)) ∨
    (i = .dtake ∧ t.status = clearDONE s.status) ∨
    (i = .ddis ∧ t.status = clearEN s.status) ∨
    (i = .rst ∧ t.status = 0) := by
  cases e with
  | tickOn hen =>
    rw [advanceCounter_eq]
    by_cases hc : s.cnt.toNat = 8
    · exact .inr (.inl ⟨rfl, hen, hc, if_pos hc⟩)
    · exact .inl (if_neg hc)
  | stw d m => exact .inr (.inr (.inl ⟨d, m, rfl, rfl⟩))
  | dtake => exact .inr (.inr (.inr (.inl ⟨rfl, rfl⟩)))
  | ddis => exact .inr (.inr (.inr (.inr (.inl ⟨rfl, rfl⟩))))
  | rst => exact .inr (.inr (.inr (.inr (.inr ⟨rfl, rfl⟩))))
  | _ => exact .inl rfl

/-- The commands that emit a frame, in the states in which they do (R60, R79, R80). -/
def Emits (i : Instr) (s : State) : Prop := (i = .tick ∧ s.status.getLsbD 6 = true) ∨ i = .ddis ∨ i = .rst

/-- R64: a command emits the one frame that LATCH then holds, or leaves LATCH and FRAMES alone. -/
theorem Effect.frames (e : Effect i s t) :
    (Emits i s ∧ t.frames = s.frames ++ [t.latch]) ∨ (¬Emits i s ∧ t.frames = s.frames ∧ t.latch = s.latch) := by
  unfold Emits
  cases e with
  | tickOff hen =>
    rw [statusEN] at hen
    exact .inr ⟨by simp [hen, -BitVec.getLsbD_eq_getElem], rfl, rfl⟩
  | tickOn hen hdef => exact .inl ⟨.inl ⟨rfl, hen⟩, by simp⟩
  | ddis => exact .inl ⟨.inr (.inl rfl), rfl⟩
  | rst => exact .inl ⟨.inr (.inr rfl), rfl⟩
  | badBuffer hb =>
    refine .inr ⟨?_, rfl, rfl⟩
    rintro (⟨rfl, _⟩ | rfl | rfl) <;> cases hb
  | badValue hb hv =>
    refine .inr ⟨?_, rfl, rfl⟩
    rintro (⟨rfl, _⟩ | rfl | rfl) <;> cases hv
  | _ => exact .inr ⟨by simp, rfl, rfl⟩

/-- R101: only an operand that is illegal by value adds to FAULTS, and only one entry. -/
theorem Effect.faults (e : Effect i s t) :
    t.faults = s.faults ∨ (i.wellFormed s.numBuffers = false ∧ ∃ r, t.faults = s.faults ++ [r]) := by
  cases e with
  | badBuffer hb => exact .inr ⟨by rw [Instr.wellFormed, hb]; rfl, _, rfl⟩
  | badValue hb hv => exact .inr ⟨by rw [Instr.wellFormed, hv, Bool.and_false], _, rfl⟩
  | tickOn => exact .inl (advanceCounter_faults _)
  | _ => exact .inl rfl

/-- R53: the commands that respond add one response. -/
theorem Effect.responses (e : Effect i s t) :
    t.responses = s.responses ∨
    ((i = .str ∨ i = .dtake ∨ ∃ b j, i = .segr b j) ∧ ∃ v, t.responses = s.responses ++ [v]) := by
  cases e with
  | segr hb j => exact .inr ⟨.inr (.inr ⟨_, j, rfl⟩), _, rfl⟩
  | str => exact .inr ⟨.inl rfl, _, rfl⟩
  | dtake => exact .inr ⟨.inr (.inl rfl), _, rfl⟩
  | tickOn => exact .inl (advanceCounter_responses _)
  | _ => exact .inl rfl

theorem Effect.numBuffers (e : Effect i s t) : t.numBuffers = s.numBuffers := by
  cases e with
  | tickOn => exact advanceCounter_numBuffers _
  | _ => rfl

theorem Effect.agents (e : Effect i s t) : t.agents = s.agents := by
  cases e with
  | tickOn => exact advanceCounter_agents _
  | _ => rfl

end Registers

/-- Only SEGW, SEGR and SEL have an operand that can be illegal by value (R52). -/
theorem segmentCommand_of_wellFormed_false {i : Instr} {n : Nat} (h : i.wellFormed n = false) :
    (∃ b j d, i = .segw b j d) ∨ (∃ b j, i = .segr b j) ∨ ∃ b, i = .sel b := by
  cases i with
  | segw b j d => exact .inl ⟨b, j, d, rfl⟩
  | segr b j => exact .inr (.inl ⟨b, j, rfl⟩)
  | sel b => exact .inr (.inr ⟨b, rfl⟩)
  | _ => cases h

/-! ### The flags of STATUS -/

section Flags
variable {i : Instr} {s t : State}

/-- R16, R17, R19: RATE, STEP and ONE. -/
theorem Effect.statusField (e : Effect i s t) {j : Nat} (hj : j < 4 ∨ j = 5)
    (h : t.status.getLsbD j ≠ s.status.getLsbD j) : i = .rst ∨ ∃ d m, i = .stw d m := by
  have h4 : j ≠ 4 := by omega
  have h6 : j ≠ 6 := by omega
  rcases e.status with hs | ⟨_, _, _, hs⟩ | ⟨d, m, hi, _⟩ | ⟨_, hs⟩ | ⟨_, hs⟩ | ⟨hi, _⟩
  · exact absurd (by rw [hs]) h
  · exact absurd (by rw [hs]; simp [h4, h6]) h
  · exact .inr ⟨d, m, hi⟩
  · exact absurd (by rw [hs]; simp [h4]) h
  · exact absurd (by rw [hs]; simp [h6]) h
  · exact .inl hi

/-- R76: an STW sets a bit that was 0 only where mask and data are 1. -/
theorem bits_of_maskedWrite_set {w : Byte} {m d : BitVec 7} {j : Nat} (hw : w.getLsbD j = false)
    (h : (maskedWrite w (statusOperand m) (statusOperand d)).getLsbD j = true) :
    m.getLsbD j = true ∧ d.getLsbD j = true := by
  rw [getLsbD_maskedWrite, getLsbD_statusOperand, getLsbD_statusOperand, hw] at h
  split at h
  · next hm => exact ⟨hm, h⟩
  · cases h

/-- R18: what sets DONE. -/
theorem Effect.setsDONE (e : Effect i s t) (hs : s.status.getLsbD 4 = false) (ht : t.status.getLsbD 4 = true) :
    (i = .tick ∧ s.status.getLsbD 6 = true ∧ s.cnt.toNat = 8) ∨
      ∃ d m, i = .stw d m ∧ m.getLsbD 4 = true ∧ d.getLsbD 4 = true := by
  rcases e.status with h | ⟨hi, hen, hc, _⟩ | ⟨d, m, hi, h⟩ | ⟨_, h⟩ | ⟨_, h⟩ | ⟨_, h⟩
  · rw [h, hs] at ht; cases ht
  · exact .inl ⟨hi, hen, hc⟩
  · exact .inr ⟨d, m, hi, bits_of_maskedWrite_set hs (h ▸ ht)⟩
  · rw [h, getLsbD_clearDONE] at ht; cases ht
  · rw [h, getLsbD_clearEN, hs] at ht; cases ht
  · rw [h, BitVec.ofNat_eq_ofNat, BitVec.getLsbD_zero] at ht; cases ht

/-- R18: what clears DONE. -/
theorem Effect.clearsDONE (e : Effect i s t) (hs : s.status.getLsbD 4 = true) (ht : t.status.getLsbD 4 = false) :
    i = .dtake ∨ (∃ d m, i = .stw d m) ∨ i = .rst := by
  rcases e.status with h | ⟨_, _, _, h⟩ | ⟨d, m, hi, _⟩ | ⟨hi, _⟩ | ⟨_, h⟩ | ⟨hi, _⟩
  · rw [h, hs] at ht; cases ht
  · rw [h, getLsbD_statusAfterWrap] at ht; cases ht
  · exact .inr (.inl ⟨d, m, hi⟩)
  · exact .inl hi
  · rw [h, getLsbD_clearEN, hs] at ht; cases ht
  · exact .inr (.inr hi)

/-- R20: what sets EN. -/
theorem Effect.setsEN (e : Effect i s t) (hs : s.status.getLsbD 6 = false) (ht : t.status.getLsbD 6 = true) :
    ∃ d m, i = .stw d m ∧ m.getLsbD 6 = true ∧ d.getLsbD 6 = true := by
  rcases e.status with h | ⟨_, _, _, h⟩ | ⟨d, m, hi, h⟩ | ⟨_, h⟩ | ⟨_, h⟩ | ⟨_, h⟩
  · rw [h, hs] at ht; cases ht
  · rw [h, getLsbD_statusAfterWrap, hs] at ht; cases ht
  · exact ⟨d, m, hi, bits_of_maskedWrite_set hs (h ▸ ht)⟩
  · rw [h, getLsbD_clearDONE, hs] at ht; cases ht
  · rw [h, getLsbD_clearEN] at ht; cases ht
  · rw [h, BitVec.ofNat_eq_ofNat, BitVec.getLsbD_zero] at ht; cases ht

/-- R20: what clears EN. -/
theorem Effect.clearsEN (e : Effect i s t) (hs : s.status.getLsbD 6 = true) (ht : t.status.getLsbD 6 = false) :
    (i = .tick ∧ s.cnt.toNat = 8 ∧ s.status.getLsbD 5 = true) ∨ (∃ d m, i = .stw d m) ∨ i = .ddis ∨ i = .rst := by
  rcases e.status with h | ⟨hi, _, hc, h⟩ | ⟨d, m, hi, _⟩ | ⟨_, h⟩ | ⟨hi, _⟩ | ⟨hi, _⟩
  · rw [h, hs] at ht; cases ht
  · rw [h, getLsbD_statusAfterWrap, hs] at ht
    exact .inl ⟨hi, hc, by simpa using ht⟩
  · exact .inr (.inl ⟨d, m, hi⟩)
  · rw [h, getLsbD_clearDONE, hs] at ht; cases ht
  · exact .inr (.inr (.inl hi))
  · exact .inr (.inr (.inr hi))

/-- R49, R113: bit 7 of STATUS. -/
theorem Effect.statusSeven (e : Effect i s t) (h : t.status.getLsbD 7 ≠ s.status.getLsbD 7) : i = .rst := by
  rcases e.status with hs | ⟨_, _, _, hs⟩ | ⟨d, m, _, hs⟩ | ⟨_, hs⟩ | ⟨_, hs⟩ | ⟨hi, _⟩
  · exact absurd (by rw [hs]) h
  · exact absurd (by rw [hs]; simp) h
  · exact absurd (by rw [hs]; exact getLsbD_maskedWrite_statusOperand_seven _ _ _) h
  · exact absurd (by rw [hs]; simp) h
  · exact absurd (by rw [hs]; simp) h
  · exact hi

end Flags

/-- Settles O36: one clause for each register, read off the effect of the command. -/
theorem writersOfEachRegister : Obligations.WritersOfEachRegister := by
  intro i s t h
  have e := Effect.of_exec h
  refine ⟨e.seg.resolve_left, e.act.resolve_left, e.cnt.resolve_left, fun j => e.statusField, fun hs ht => ?_,
    e.clearsDONE, e.setsEN, e.clearsEN, e.statusSeven, fun hne => ?_, fun hne => ?_, fun hne => ?_, e.numBuffers,
    e.agents⟩
  · exact (e.setsDONE hs ht).imp (fun ⟨hi, _, hc⟩ => ⟨hi, hc⟩) fun ⟨d, m, hi, _⟩ => ⟨d, m, hi⟩
  · rcases e.frames with ⟨hem, _⟩ | ⟨_, hf, hl⟩
    · exact hem.imp_left And.left
    · exact absurd hf (hne.resolve_left (not_not.2 hl))
  · obtain ⟨hwf, _⟩ := e.faults.resolve_left hne
    exact ⟨hwf, segmentCommand_of_wellFormed_false hwf⟩
  · exact (e.responses.resolve_left hne).1

/-! ### The records -/

/-- A list with nothing added, or with one entry more, begins with the list it was. -/
theorem isPrefix_of_eq_or_append {α : Type} {l l' : List α} (h : l' = l ∨ ∃ a, l' = l ++ [a]) : l <+: l' := by
  rcases h with h | ⟨a, h⟩ <;> rw [h]
  exact List.prefix_append l [a]

theorem Effect.records {i : Instr} {s t : State} (e : Effect i s t) :
    s.frames <+: t.frames ∧ s.faults <+: t.faults ∧ s.responses <+: t.responses := by
  refine ⟨isPrefix_of_eq_or_append ?_, isPrefix_of_eq_or_append ?_, isPrefix_of_eq_or_append ?_⟩
  · rcases e.frames with ⟨_, hf⟩ | ⟨_, hf, _⟩
    · exact .inr ⟨_, hf⟩
    · exact .inl hf
  · exact e.faults.imp_right And.right
  · exact e.responses.imp_right And.right

/-- Settles O37: a step executes a command word, which adds to the records or leaves them. -/
theorem recordsOnlyGrow : Obligations.RecordsOnlyGrow := by
  intro s t h
  obtain ⟨w, v, hv, ht⟩ := stepWith_word h
  rw [ht]
  rcases effect_of_execWord hv with ⟨i, _, e⟩ | ⟨c, _, rfl⟩
  · exact e.records
  · exact ⟨List.prefix_rfl, List.prefix_append _ _, List.prefix_rfl⟩

/-- Settles O38: a step that emits a frame latches it, and any other leaves LATCH and FRAMES alone. -/
theorem latchStaysTheLastFrame : Obligations.LatchStaysTheLastFrame := by
  intro s t hs h
  obtain ⟨w, v, hv, ht⟩ := stepWith_word h
  rw [ht]
  rcases effect_of_execWord hv with ⟨i, _, e⟩ | ⟨c, _, rfl⟩
  · rcases e.frames with ⟨_, hf⟩ | ⟨_, hf, hl⟩
    · exact .inr (by simp [hf])
    · simpa [hf, hl] using hs
  · exact hs

/-- Settles O40: the calls of a frame appended to FRAMES are appended to the calls, and FRAMES is then not empty. -/
theorem eachEmittingCommandSendsOneFrame : Obligations.EachEmittingCommandSendsOneFrame := by
  intro i s t h
  rcases (Effect.of_exec h).frames with ⟨hem, hf⟩ | ⟨hno, hf, hl⟩
  · exact ⟨fun _ => ⟨by simp [State.busCalls, hf], by simp [State.display, hf]⟩, fun hno => absurd hem hno⟩
  · exact ⟨fun hem => absurd hem hno, fun _ => ⟨by rw [State.busCalls, hf]; rfl, by rw [State.display, hf, hl]; rfl⟩⟩

end Sys2Proof.Proofs
end

/-! ## Proofs: TICK against the segment buffers, and the sweep (40_refresh.md R60 to R69) -/
section
namespace Sys2Proof.Proofs
open Sys2Proof.Machine

/-! ### What the frame of a TICK depends on -/

/-- R62: two states have the same frame when CNT and the active buffer's bytes are the same. -/
theorem activeFrame_congr {s t : State} (hcnt : t.cnt = s.cnt)
    (hseg : ∀ i, readSegment t t.act i = readSegment s s.act i) : activeFrame t = activeFrame s :=
  frame_ext fun i => by rw [getLsbD_activeFrame, getLsbD_activeFrame, hcnt, hseg]

/-- Settles O12: the frame is the same, and neither TICK's two checks nor the counter's advance reads the memory. -/
theorem tickReadsOnlyTheActiveBuffer : Obligations.TickReadsOnlyTheActiveBuffer := by
  intro s m h
  have hframe : activeFrame { s with seg := m } = activeFrame s := activeFrame_congr rfl h
  have hadv : advanceCounter (emitFrame (activeFrame s) { s with seg := m }) =
      { advanceCounter (emitFrame (activeFrame s) s) with seg := m } := by
    rw [advanceCounter_eq, advanceCounter_eq]
    rfl
  rw [exec_tick, exec_tick, execTick, execTick, hframe, hadv]
  change (if statusEN s.status then if refreshDefined s then _ else _ else _) = _
  split_ifs <;> rfl

/-! ### An enabled TICK in a legal state -/

/-- The state after an enabled TICK of a legal state (R60). -/
def ticked (s : State) : State := advanceCounter (emitFrame (activeFrame s) s)

section Ticked
variable {s : State}

theorem exec_tick_of_legal (h : s.Legal) (hen : s.status.getLsbD 6 = true) : exec .tick s = .next (ticked s) :=
  execTick_enabled hen h.refreshDefined

theorem legal_ticked (h : s.Legal) : (ticked s).Legal := legal_advanceCounter (s := emitFrame (activeFrame s) s) h

@[simp] theorem ticked_seg (s : State) : (ticked s).seg = s.seg := advanceCounter_seg _
@[simp] theorem ticked_act (s : State) : (ticked s).act = s.act := advanceCounter_act _
@[simp] theorem ticked_latch (s : State) : (ticked s).latch = activeFrame s := advanceCounter_latch _
@[simp] theorem ticked_frames (s : State) : (ticked s).frames = s.frames ++ [activeFrame s] := advanceCounter_frames _

@[simp] theorem readSegment_ticked (s : State) (b : BufferIndex) (i : SegmentIndex) :
    readSegment (ticked s) b i = readSegment s b i := by
  rw [readSegment, readSegment, ticked_seg]

theorem ticked_cnt (s : State) : (ticked s).cnt = if s.cnt.toNat = 8 then 0 else s.cnt + 1 := by
  rw [ticked, advanceCounter_eq]
  rfl

theorem ticked_status (s : State) :
    (ticked s).status = if s.cnt.toNat = 8 then statusAfterWrap s.status else s.status := by
  rw [ticked, advanceCounter_eq]
  rfl

/-- R65: before the wrap the counter goes up by one and STATUS stays. -/
theorem toNat_ticked_cnt_of_lt (h : s.cnt.toNat < 8) : (ticked s).cnt.toNat = s.cnt.toNat + 1 := by
  have hne : s.cnt.toNat ≠ 8 := by omega
  have hlt : s.cnt.toNat + 1 < 16 := by omega
  rw [ticked_cnt, if_neg hne, BitVec.toNat_add]
  exact Nat.mod_eq_of_lt hlt

theorem ticked_status_of_lt (h : s.cnt.toNat < 8) : (ticked s).status = s.status := by
  rw [ticked_status, if_neg (by omega)]

end Ticked

/-! ### A command of the host between two TICKs -/

/-- Settles O20: the TICK after the SEGW compares what the written memory reads as. -/
theorem segwReachesTheNextFrameOnlyThroughTheActiveBuffer :
    Obligations.SegwReachesTheNextFrameOnlyThroughTheActiveBuffer := by
  intro s b i d h hb hd hen
  have hlane (j : SegmentIndex) : (ticked (writeSegment s b i d)).latch.getLsbD j.toNat =
      decide (s.cnt.toNat < (if s.act = b ∧ j = i then d else readSegment s s.act j).toNat) := by
    rw [ticked_latch, getLsbD_activeFrame, readSegment_writeSegment]
    rfl
  have hold (j : SegmentIndex) : (ticked s).latch.getLsbD j.toNat =
      decide (s.cnt.toNat < (readSegment s s.act j).toNat) := by
    rw [ticked_latch, getLsbD_activeFrame]
  refine ⟨_, _, _, exec_segw_of_legal hb i hd, exec_tick_of_legal (legal_writeSegment h hb i hd) hen,
    exec_tick_of_legal h hen, fun hact => ⟨?_, fun j hj => ?_⟩, fun hact => ?_, ?_, ?_⟩
  · rw [hlane, if_pos ⟨hact.symm, rfl⟩]
  · rw [hlane, hold, if_neg fun hc => hj hc.2]
  · have hframe : activeFrame (writeSegment s b i d) = activeFrame s :=
      activeFrame_congr rfl fun j => by
        rw [readSegment_writeSegment, writeSegment_act, if_neg fun hc => hact hc.1.symm]
    exact ⟨by rw [ticked_latch, ticked_latch, hframe], by rw [ticked_frames, ticked_frames, hframe]; rfl⟩
  · rw [ticked_cnt, ticked_cnt]; rfl
  · rw [ticked_status, ticked_status]; rfl

/-- Settles O21: SEL leaves CNT, and the frame compares the buffer that ACT then names. -/
theorem selMidSweepComparesTheNewBuffer : Obligations.SelMidSweepComparesTheNewBuffer := by
  intro s b h hb hen
  have ht : exec (.sel b) s = .next { s with act := b } := exec_sel_of_present hb
  refine ⟨_, _, ht, exec_tick_of_legal ((Effect.of_exec ht).legal h) hen, rfl, rfl, fun i => ?_⟩
  rw [ticked_latch, getLsbD_activeFrame]
  rfl

/-- Settles O46: an STW is a masked write, which commutes with TICK where the mask leaves DONE, ONE and EN alone. -/
theorem maskedUpdateCommutesWithTick : Obligations.MaskedUpdateCommutesWithTick := by
  intro s t d m h4 h5 h6 ht
  have hm (j : Nat) (h : m.getLsbD j = false) : (statusOperand m).getLsbD j = false := by
    rw [getLsbD_statusOperand, h]
  exact ⟨_, _, rfl, execTick_maskStatus (hm 4 h4) (hm 5 h5) (hm 6 h6) ht (statusOperand d), rfl⟩

/-! ### Nesting -/

/-- Settles O14: both frames compare the same bytes, the second with a counter one higher. -/
theorem sweepFramesNest : Obligations.SweepFramesNest := by
  intro s h hen hcnt
  have hen' : (ticked s).status.getLsbD 6 = true := by rw [ticked_status_of_lt hcnt, hen]
  have hfirst (i : SegmentIndex) : (ticked s).latch.getLsbD i.toNat =
      decide (s.cnt.toNat < (readSegment s s.act i).toNat) := by
    rw [ticked_latch, getLsbD_activeFrame]
  have hsecond (i : SegmentIndex) : (ticked (ticked s)).latch.getLsbD i.toNat =
      decide (s.cnt.toNat + 1 < (readSegment s s.act i).toNat) := by
    rw [ticked_latch, getLsbD_activeFrame, toNat_ticked_cnt_of_lt hcnt, ticked_act, readSegment_ticked]
  refine ⟨_, _, exec_tick_of_legal h hen, exec_tick_of_legal (legal_ticked h) hen', ?_, fun h0 i => ?_, fun h7 i => ?_⟩
  · refine frame_ext fun i => ?_
    rw [BitVec.getLsbD_and, BitVec.getLsbD_not, hfirst, hsecond]
    by_cases hlit : s.cnt.toNat + 1 < (readSegment s s.act i).toNat
    · have hlit' : s.cnt.toNat < (readSegment s s.act i).toNat := by omega
      simp [hlit']
    · simp [hlit]
  · rw [hfirst, h0]
    rfl
  · rw [hsecond, h7, decide_eq_decide]
    have hle := segmentBytesAreIntensities s s.act i h
    rw [← BitVec.toNat_inj]
    show 8 < _ ↔ _ = 9
    omega

/-! ### The period of the sweep -/

/-- R65: `j` enabled TICKs before the wrap advance CNT by `j` and emit `j` frames; STATUS, SEG and ACT stay. -/
theorem execWords_ticks_of_lt {s : State} (h : s.Legal) (hen : s.status.getLsbD 6 = true) {j : Nat}
    (hj : s.cnt.toNat + j ≤ 8) :
    ∃ t, execWords (List.replicate j (encode .tick)) s = .next t ∧ t.Legal ∧ t.cnt.toNat = s.cnt.toNat + j ∧
      t.status = s.status ∧ t.frames.length = s.frames.length + j ∧ t.seg = s.seg := by
  induction j generalizing s with
  | zero => exact ⟨s, rfl, h, rfl, rfl, rfl, rfl⟩
  | succ j ih =>
    have hlt : s.cnt.toNat < 8 := by omega
    have hc := toNat_ticked_cnt_of_lt hlt
    have hst := ticked_status_of_lt hlt
    obtain ⟨t, ht, hleg, hcnt, hstatus, hframes, hseg⟩ :=
      ih (legal_ticked h) (by rw [hst, hen]) (by omega)
    refine ⟨t, ?_, hleg, by omega, hstatus.trans hst, ?_, hseg.trans (ticked_seg s)⟩
    · rw [List.replicate_succ, execWords_cons ((execWord_encode _ _).trans (exec_tick_of_legal h hen)), ht]
    · rw [hframes, ticked_frames, List.length_append, List.length_singleton]
      omega

/-- R65, R69: the wrap comes with the TICK that brings the count from CNT to 9. -/
theorem execWords_ticks_to_wrap {s : State} (h : s.Legal) (hen : s.status.getLsbD 6 = true) {j : Nat}
    (hj : s.cnt.toNat + j = 9) :
    ∃ t, execWords (List.replicate j (encode .tick)) s = .next t ∧ t.Legal ∧ t.cnt = 0 ∧
      t.status = statusAfterWrap s.status ∧ t.frames.length = s.frames.length + j ∧ t.seg = s.seg := by
  have hle := h.cnt_le
  obtain ⟨k, rfl⟩ : ∃ k, j = k + 1 := ⟨j - 1, by omega⟩
  obtain ⟨u, hu, hleg, hcnt, hstatus, hframes, hseg⟩ := execWords_ticks_of_lt h hen (j := k) (by omega)
  have hc : u.cnt.toNat = 8 := by omega
  refine ⟨ticked u, ?_, legal_ticked hleg, ?_, ?_, ?_, ?_⟩
  · rw [List.replicate_succ', execWords_append hu,
      execWords_cons ((execWord_encode _ _).trans (exec_tick_of_legal hleg (by rw [hstatus, hen]))), execWords_nil]
  · rw [ticked_cnt, if_pos hc]
  · rw [ticked_status, if_pos hc, hstatus]
  · rw [ticked_frames, List.length_append, List.length_singleton]
    omega
  · rw [ticked_seg, hseg]

/-- R69: with ONE 0 the wrap sets DONE and nothing else. -/
theorem statusAfterWrap_of_continuous {w : Byte} (hone : w.getLsbD 5 = false) : statusAfterWrap w = w ||| 0x10 := by
  rw [statusAfterWrap_eq, hone]
  rfl

/-- R69: what a STATUS with DONE left set or cleared has in common with the one the wrap left. -/
theorem getLsbD_of_doneLeftOrCleared {w v : Byte} (hw : w = v ∨ w = v &&& 0xEF) {j : Nat} (hj : j ≠ 4) :
    w.getLsbD j = v.getLsbD j := by
  rcases hw with rfl | rfl
  · rfl
  · rw [← clearDONE_eq, getLsbD_clearDONE]
    simp [hj]

/-- Settles O15: under continuous refresh the wrap only sets DONE, so the sweep begins again from CNT 0 whatever DONE
is. -/
theorem continuousRefreshHasPeriodNine : Obligations.ContinuousRefreshHasPeriodNine := by
  intro s h hen hone
  have hle := h.cnt_le
  refine ⟨fun j hj => ?_, ?_⟩
  · obtain ⟨t, ht, _, hcnt, hstatus, hframes, _⟩ := execWords_ticks_of_lt h hen (j := j) (by omega)
    exact ⟨t, ht, hcnt, hstatus, hframes⟩
  obtain ⟨t, ht, hleg, hcnt, hstatus, hframes, hseg⟩ := execWords_ticks_to_wrap h hen (j := 9 - s.cnt.toNat) (by omega)
  refine ⟨t, ht, hcnt, hstatus.trans (statusAfterWrap_of_continuous hone), hframes, hseg, fun w hw => ?_⟩
  have hlegw : State.Legal { t with status := w } :=
    legal_withStatus hleg (getLsbD_of_doneLeftOrCleared hw (by decide))
  have henw : w.getLsbD 6 = true := by
    rw [getLsbD_of_doneLeftOrCleared hw (by decide), hstatus, getLsbD_statusAfterWrap, hen, hone]
    rfl
  have honew : w.getLsbD 5 = false := by
    rw [getLsbD_of_doneLeftOrCleared hw (by decide), hstatus, getLsbD_statusAfterWrap, hone]
    rfl
  have hzero : t.cnt.toNat = 0 := by rw [hcnt]; rfl
  refine ⟨fun j hj => ?_, ?_⟩
  · obtain ⟨u, hu, _, hcntu, hstatusu, _⟩ :=
      execWords_ticks_of_lt hlegw henw (j := j) (by dsimp only; omega)
    exact ⟨u, hu, by dsimp only at hcntu; omega, hstatusu⟩
  · obtain ⟨u, hu, _, hcntu, hstatusu, hframesu, hsegu⟩ :=
      execWords_ticks_to_wrap hlegw henw (j := 9) (by dsimp only; omega)
    exact ⟨u, hu, hcntu, hstatusu.trans (statusAfterWrap_of_continuous honew), hframesu, hsegu.trans hseg⟩

/-- R61: TICKs with refresh off change nothing. -/
theorem execWords_ticks_of_EN_false {s : State} (hen : s.status.getLsbD 6 = false) (n : Nat) :
    execWords (List.replicate n (encode .tick)) s = .next s := by
  induction n with
  | zero => rfl
  | succ n ih =>
    rw [List.replicate_succ, execWords_cons ((execWord_encode _ _).trans (exec_tick_of_EN_false hen)), ih]

/-- Settles O16: in one-cycle mode the wrap also clears EN, after which TICKs change nothing. -/
theorem oneCycleModeSuspendsAtTheWrap : Obligations.OneCycleModeSuspendsAtTheWrap := by
  intro s h hen hone
  have hle := h.cnt_le
  refine ⟨fun j hj => ?_, ?_⟩
  · obtain ⟨t, ht, _, hcnt, hstatus, _⟩ := execWords_ticks_of_lt h hen (j := j) (by omega)
    exact ⟨t, ht, hcnt, hstatus⟩
  · obtain ⟨t, ht, _, hcnt, hstatus, hframes, _⟩ := execWords_ticks_to_wrap h hen (j := 9 - s.cnt.toNat) (by omega)
    refine ⟨t, ht, hcnt, ?_, hframes, execWords_ticks_of_EN_false ?_⟩
    · rw [hstatus, statusAfterWrap_eq, if_pos hone]
    · rw [hstatus, getLsbD_statusAfterWrap, hone, Bool.and_comm]
      rfl

end Sys2Proof.Proofs
end

/-! ## Proofs: duty fidelity over a sweep (40_refresh.md R67) -/
section
namespace Sys2Proof.Proofs
open Sys2Proof.Machine

/-! ### The frames of the enabled TICKs among command words -/

theorem tickFrames_cons {w : Word} {s t : State} (h : execWord w s = .next t) (ws : List Word) :
    tickFrames (w :: ws) s =
      (if decode w = .ok .tick ∧ statusEN s.status = true then [t.latch] else []) ++ tickFrames ws t := by
  rw [tickFrames, h]

theorem tickFrames_append {ws : List Word} {s t : State} (h : execWords ws s = .next t) (vs : List Word) :
    tickFrames (ws ++ vs) s = tickFrames ws s ++ tickFrames vs t := by
  induction ws generalizing s with
  | nil => cases h; rfl
  | cons w ws ih =>
    obtain ⟨u, hu, hr⟩ := execWords_cons_inv h
    rw [List.cons_append, tickFrames_cons hu, tickFrames_cons hu, ih hr, List.append_assoc]

/-- An enabled TICK at the end adds the frame it latches. -/
theorem tickFrames_append_tick {ws : List Word} {s t u : State} (h : execWords ws s = .next t)
    (hen : t.status.getLsbD 6 = true) (hu : exec .tick t = .next u) :
    tickFrames (ws ++ [encode .tick]) s = tickFrames ws s ++ [u.latch] := by
  rw [tickFrames_append h, tickFrames_cons ((execWord_encode _ _).trans hu), if_pos ⟨decode_encode _, hen⟩]
  rfl

/-! ### What a word of the sweep keeps -/

/-- R67: a command that neither writes the active buffer, nor selects another, nor resets the block keeps the
selection and the active buffer's bytes; CNT too, unless it is an enabled TICK. -/
theorem Effect.sweep {i : Instr} {s t : State} (e : Effect i s t) (hk : keepsSweep s.act i = true) :
    t.act = s.act ∧ (∀ j, readSegment t s.act j = readSegment s s.act j) ∧
      (¬(i = .tick ∧ statusEN s.status = true) → t.cnt = s.cnt) := by
  cases e with
  | tickOn hen hdef =>
    refine ⟨ticked_act s, readSegment_ticked s s.act, fun hno => absurd ⟨rfl, hen⟩ hno⟩
  | segw hb j hd =>
    refine ⟨rfl, fun k => ?_, fun _ => rfl⟩
    have hne : _ ≠ s.act := bne_iff_ne.1 hk
    rw [readSegment_writeSegment, if_neg fun hc => hne hc.1.symm]
  | sel hb =>
    obtain rfl : _ = s.act := beq_iff_eq.1 hk
    exact ⟨rfl, fun _ => rfl, fun _ => rfl⟩
  | rst => cases hk
  | _ => exact ⟨rfl, fun _ => rfl, fun _ => rfl⟩

theorem execWord_keepsSweep {w : Word} {s t : State} (hk : wordKeepsSweep s.act w = true) (h : execWord w s = .next t) :
    t.act = s.act ∧ (∀ j, readSegment t s.act j = readSegment s s.act j) ∧
      (¬(decode w = .ok .tick ∧ statusEN s.status = true) → t.cnt = s.cnt) := by
  rcases effect_of_execWord h with ⟨i, hi, e⟩ | ⟨c, hc, rfl⟩
  · rw [wordKeepsSweep, hi] at hk
    obtain ⟨hact, hseg, hcnt⟩ := e.sweep hk
    refine ⟨hact, hseg, fun hno => hcnt fun ⟨htick, hen⟩ => hno ⟨?_, hen⟩⟩
    rw [hi, htick]
  · exact ⟨rfl, fun _ => rfl, fun _ => rfl⟩

/-- The lane of a segment in a list of frames. -/
def lanes (i : SegmentIndex) (Fs : List Frame) : List Bool := Fs.map fun F => F.getLsbD i.toNat

/-- The lane of a segment of value `v` in `n` frames of a sweep, from the counter `c` up. -/
def duty (v c n : Nat) : List Bool := (List.range' c n).map fun k => decide (k < v)

/-- R67, within the sweep: as long as the enabled TICKs do not reach the wrap, the words complete, each enabled TICK
advances CNT by one, and the lane of a segment is the compare of its byte with the running counter. -/
theorem execWords_keepsSweep {ws : List Word} {s : State} (h : s.Legal) (hk : ∀ w ∈ ws, wordKeepsSweep s.act w = true)
    (hlen : s.cnt.toNat + (tickFrames ws s).length ≤ 8) :
    ∃ t, execWords ws s = .next t ∧ t.Legal ∧ t.cnt.toNat = s.cnt.toNat + (tickFrames ws s).length ∧
      ∀ i, readSegment t t.act i = readSegment s s.act i ∧
        lanes i (tickFrames ws s) = duty (readSegment s s.act i).toNat s.cnt.toNat (tickFrames ws s).length := by
  induction ws generalizing s with
  | nil => exact ⟨s, rfl, h, rfl, fun _ => ⟨rfl, rfl⟩⟩
  | cons w ws ih =>
    obtain ⟨u, hu⟩ := exists_execWord_eq_next h.refreshDefined w
    obtain ⟨hact, hseg, hcnt⟩ := execWord_keepsSweep (hk w List.mem_cons_self) hu
    have hku : ∀ w ∈ ws, wordKeepsSweep u.act w = true := fun w hw => by
      rw [hact]
      exact hk w (List.mem_cons_of_mem _ hw)
    have hsegu (i) : readSegment u u.act i = readSegment s s.act i := by rw [hact, hseg]
    rw [tickFrames_cons hu] at hlen ⊢
    by_cases htick : decode w = .ok .tick ∧ statusEN s.status = true
    · obtain ⟨hdec, hen⟩ := htick
      obtain rfl : ticked s = u := by
        rw [execWord_ok hdec, exec_tick_of_legal h hen] at hu
        exact Host.Outcome.next.inj hu
      rw [if_pos ⟨hdec, hen⟩, List.singleton_append, List.length_cons] at hlen ⊢
      have hone := toNat_ticked_cnt_of_lt (s := s) (by omega)
      obtain ⟨t, ht, hleg, hcntt, hlanes⟩ := ih (legal_ticked h) hku (by omega)
      refine ⟨t, (execWords_cons hu).trans ht, hleg, by omega, fun i => ?_⟩
      obtain ⟨hsegt, hl⟩ := hlanes i
      refine ⟨hsegt.trans (hsegu i), ?_⟩
      rw [lanes, List.map_cons, ← lanes, hl, hsegu, hone, ticked_latch, getLsbD_activeFrame, duty, duty, List.range'_succ]
      rfl
    · rw [if_neg htick, List.nil_append] at hlen ⊢
      have hsame := hcnt htick
      rw [← hsame] at hlen ⊢
      obtain ⟨t, ht, hleg, hcntt, hlanes⟩ := ih (legal_of_execWord h hu) hku hlen
      refine ⟨t, (execWords_cons hu).trans ht, hleg, hcntt, fun i => ?_⟩
      rw [← hsegu]
      exact hlanes i

/-! ### The lanes of a whole sweep -/

theorem getElem_eq_of_lanes_eq_duty {i : SegmentIndex} {Fs : List Frame} {v : Nat} (h : lanes i Fs = duty v 0 9) (c : Nat)
    (hc : c < Fs.length) : (Fs[c]).getLsbD i.toNat = decide (c < v) := by
  have hget := congrArg (fun l => l[c]?) h
  have hlen : c < 9 := by
    have := congrArg List.length h
    simp only [lanes, duty, List.length_map, List.length_range'] at this
    omega
  simpa [lanes, duty, hc, hlen] using hget

/-- Of the nine counters of a sweep, `v` are below an intensity `v`. -/
theorem length_filter_of_lanes_eq_duty {i : SegmentIndex} {Fs : List Frame} {v : Nat} (hv : v ≤ 9)
    (h : lanes i Fs = duty v 0 9) : (Fs.filter fun F => F.getLsbD i.toNat).length = v := by
  have hcount : (Fs.filter fun F => F.getLsbD i.toNat).length = (lanes i Fs).count true := by
    rw [lanes, List.count_eq_countP, List.countP_map, List.countP_eq_length_filter]
    simp [Function.comp_def]
  rw [hcount, h]
  interval_cases v <;> rfl

/-- Settles O13: eight enabled TICKs bring CNT to 8, and the ninth TICK shows the last frame and wraps. -/
theorem dutyFidelityOverASweep : Obligations.DutyFidelityOverASweep := by
  intro s ws h hcnt hk hlen
  have hzero : s.cnt.toNat = 0 := by rw [hcnt]; rfl
  obtain ⟨t, ht, hleg, hcntt, hlanes⟩ := execWords_keepsSweep h hk (by omega)
  have hwrap : t.cnt.toNat = 8 := by omega
  refine ⟨t, ht, fun hen => ?_⟩
  have hu := exec_tick_of_legal hleg hen
  have hduty (i : SegmentIndex) : lanes i (tickFrames ws s ++ [(ticked t).latch]) =
      duty (readSegment s s.act i).toNat 0 9 := by
    obtain ⟨hseg, hl⟩ := hlanes i
    rw [lanes, List.map_append, ← lanes, hl, hlen, hzero, List.map_singleton, ticked_latch, getLsbD_activeFrame, hwrap,
      hseg]
    rfl
  refine ⟨ticked t, hu, ?_, ?_, tickFrames_append_tick ht hen hu, fun i => ⟨getElem_eq_of_lanes_eq_duty (hduty i), ?_⟩⟩
  · rw [ticked_status, if_pos hwrap, getLsbD_statusAfterWrap]
    rfl
  · rw [ticked_cnt, if_pos hwrap]
  · exact length_filter_of_lanes_eq_duty (segmentBytesAreIntensities s s.act i h) (hduty i)

end Sys2Proof.Proofs
end

/-! ## Proofs: commands in a row (20_memory.md R36, 70_reset_and_hazards.md R123, R124) -/
section
namespace Sys2Proof.Proofs
open Sys2Proof.Machine

/-- A masked write made twice is the write made once. -/
theorem maskedWrite_idem (w m d : Byte) : maskedWrite (maskedWrite w m d) m d = maskedWrite w m d := by
  refine BitVec.eq_of_getLsbD_eq fun j _ => ?_
  simp only [getLsbD_maskedWrite]
  split_ifs <;> rfl

theorem maskStatus_idem (m d : Byte) (s : State) : maskStatus m d (maskStatus m d s) = maskStatus m d s := by
  rw [maskStatus, maskStatus_status, maskedWrite_idem]
  rfl

/-- In canonical form a byte written twice is the byte written once: the contents are equal. -/
theorem Memory.write_idem {m : Memory} (h : Memory.wf m = true) (a : Nat) (v : Byte) :
    Memory.write (Memory.write m a v) a v = Memory.write m a v := by
  refine Memory.ext_of_wf (Memory.wf_write (Memory.wf_write h a v) a v) (Memory.wf_write h a v) fun k => ?_
  simp only [Memory.read_write]
  split_ifs <;> rfl

/-- Settles O22: the SEGR reads the written memory, and the STR the bits under the mask. -/
theorem readRightAfterWriteSeesIt : Obligations.ReadRightAfterWriteSeesIt := by
  refine ⟨fun s b i d hb hd =>
    ⟨_, _, exec_segw_of_legal hb i hd, exec_segr_of_present (s := writeSegment s b i d) hb i, ?_⟩, fun s d m => ?_⟩
  · rw [respond_responses, readSegment_writeSegment, if_pos ⟨rfl, rfl⟩, writeSegment_responses]
  · refine ⟨_, _, exec_stw d m s, exec_str _, _, rfl, fun j hj => ?_⟩
    rw [getLsbD_maskedWrite, getLsbD_statusOperand, getLsbD_statusOperand, hj]
    rfl

/-- Settles O23: a write made twice is the write made once; DONE is 0 after the first DTAKE, and EN after the first
DDIS. -/
theorem repeatedCommands : Obligations.RepeatedCommands := by
  refine ⟨fun s t i hi hwf h ht => ?_, fun s => ⟨_, _, rfl, rfl, ?_, ?_⟩,
    fun s => ⟨emitFrame 0 (maskStatus maskEN 0 s), rfl, ?_⟩⟩
  · rw [Instr.wellFormed, Bool.and_eq_true] at hwf
    obtain ⟨hb, hv⟩ := hwf
    cases i with
    | segw b j d =>
      have hb' : b.toNat < s.numBuffers := of_decide_eq_true hb
      have hd : d.toNat ≤ 9 := of_decide_eq_true hv
      rw [exec_segw_of_legal hb' j hd] at ht
      cases ht
      obtain ⟨_, hseg, _⟩ := h
      rw [exec_segw_of_legal (s := writeSegment s b j d) hb' j hd, writeSegment, writeSegment, Memory.write_idem hseg]
    | sel b =>
      have hb' : b.toNat < s.numBuffers := of_decide_eq_true hb
      rw [exec_sel_of_present hb'] at ht
      cases ht
      exact exec_sel_of_present hb'
    | stw d m =>
      cases ht
      rw [exec_stw, maskedWrite_idem]
    | _ => exact hi.elim
  · have hdone : statusDONE (clearDONE s.status) = false := getLsbD_clearDONE s.status 4
    rw [respond_responses, respond_status, hdone]
    rfl
  · exact maskedWrite_idem s.status maskDONE 0
  · calc exec .ddis (emitFrame 0 (maskStatus maskEN 0 s))
        = .next (emitFrame 0 (emitFrame 0 (maskStatus maskEN 0 (maskStatus maskEN 0 s)))) := rfl
      _ = _ := by rw [maskStatus_idem]; rfl

/-! ### The torn update (R124) -/

theorem execWords_encode_cons {i : Instr} {s t : State} (h : exec i s = .next t) (ws : List Word) :
    execWords (encode i :: ws) s = execWords ws t :=
  execWords_cons ((execWord_encode i s).trans h)

theorem legal_maskStatus {s : State} (h : s.Legal) (m d : BitVec 7) :
    (maskStatus (statusOperand m) (statusOperand d) s).Legal :=
  (Effect.stw d m s).legal h

/-- R65: the TICK at CNT 8 wraps. -/
theorem exec_tick_of_wrap {s : State} (h : s.Legal) (hcnt : s.cnt = 8) (hen : s.status.getLsbD 6 = true) :
    ∃ t, exec .tick s = .next t ∧ t.status = statusAfterWrap s.status := by
  refine ⟨_, exec_tick_of_legal h hen, ?_⟩
  rw [ticked_status, hcnt]
  rfl

/-- Settles O47: each order is run command by command, and STATUS computed from 0x60. -/
theorem tornStatusUpdate : Obligations.TornStatusUpdate := by
  intro s h hst hcnt
  have hen : s.status.getLsbD 6 = true := by rw [hst]; rfl
  have hstw (d m : BitVec 7) : (maskStatus (statusOperand m) (statusOperand d) s).status =
      maskedWrite 0x60 (statusOperand m) (statusOperand d) := by rw [maskStatus_status, hst]
  refine ⟨?_, ?_, ?_, ?_⟩
  · obtain ⟨t, ht, hwrap⟩ := exec_tick_of_wrap
      (s := respond s.status (maskStatus (statusOperand 0x7F) (statusOperand 0x62) s))
      (legal_maskStatus h 0x7F 0x62) hcnt (by rw [respond_status, hstw]; rfl)
    refine ⟨t, ?_, ?_⟩
    · rw [execWords_encode_cons (exec_str s), execWords_encode_cons (exec_stw _ _ _)]
      exact execWords_encode_cons ht []
    · rw [hwrap, respond_status, hstw]
      rfl
  · obtain ⟨t, ht, hwrap⟩ := exec_tick_of_wrap (s := respond s.status s) h hcnt hen
    refine ⟨maskStatus (statusOperand 0x7F) (statusOperand 0x62) t, ?_, ?_⟩
    · rw [execWords_encode_cons (exec_str s), execWords_encode_cons ht]
      exact execWords_encode_cons (exec_stw _ _ t) []
    · rw [maskStatus_status, hwrap, respond_status, hst]
      rfl
  · obtain ⟨t, ht, hwrap⟩ := exec_tick_of_wrap (legal_maskStatus h 0x03 0x02) hcnt (by rw [hstw]; rfl)
    refine ⟨t, ?_, ?_⟩
    · rw [execWords_encode_cons (exec_stw _ _ _)]
      exact execWords_encode_cons ht []
    · rw [hwrap, hstw]
      rfl
  · obtain ⟨t, ht, hwrap⟩ := exec_tick_of_wrap h hcnt hen
    refine ⟨maskStatus (statusOperand 0x03) (statusOperand 0x02) t, ?_, ?_⟩
    · rw [execWords_encode_cons ht]
      exact execWords_encode_cons (exec_stw _ _ t) []
    · rw [maskStatus_status, hwrap, hst]
      rfl

end Sys2Proof.Proofs
end

/-! ## Proofs: the agents and one step (00_scope.md R1, 20_memory.md R38, 60_exceptions.md R104) -/
section
namespace Sys2Proof.Proofs
open Sys2Proof.Machine

/-! ### The arbitration -/

theorem nodup_readyAgents (s : State) : (readyAgents s).Nodup :=
  List.Nodup.filter _ (by decide)

section Arbitration
variable {s : State} {a : Agent} (ha : agentReady s a = true)
include ha

/-- The one agent that has a command issues it. -/
theorem stepWith_of_only (honly : ∀ b, agentReady s b = true → b = a) (pick : Nat → Agent) :
    stepWith pick s = issueAs a s := by
  have hone : readyAgents s = [a] :=
    List.perm_singleton.1 ((List.perm_ext_iff_of_nodup (nodup_readyAgents s) (List.nodup_singleton a)).2 fun b => by
      rw [mem_readyAgents, List.mem_singleton]
      exact ⟨honly b, fun hb => hb ▸ ha⟩)
  rw [stepWith, arbitrate, hone]

/-- Where two agents have a command, the one named issues, if it is ready; and the draw is counted. -/
theorem stepWith_of_two {b : Agent} (hne : a ≠ b) (hb : agentReady s b = true) (pick : Nat → Agent) :
    ∃ c, agentReady s c = true ∧ (agentReady s (pick s.draws) = true → c = pick s.draws) ∧
      stepWith pick s = issueAs c { s with draws := s.draws + 1 } := by
  have ha' := mem_readyAgents.2 ha
  have hb' := mem_readyAgents.2 hb
  rw [stepWith, arbitrate]
  match hr : readyAgents s with
  | [] => rw [hr] at ha'; exact absurd ha' List.not_mem_nil
  | [c] =>
    rw [hr, List.mem_singleton] at ha' hb'
    exact absurd (ha'.trans hb'.symm) hne
  | c :: d :: l =>
    have hc : agentReady s c = true := mem_readyAgents.1 (by rw [hr]; exact List.mem_cons_self)
    by_cases hp : agentReady s (pick s.draws) = true
    · exact ⟨pick s.draws, hp, fun _ => rfl, by simp only [if_pos hp]⟩
    · exact ⟨c, hc, fun h => absurd h hp, by simp only [if_neg hp]⟩

end Arbitration

section OneAgent
variable {s : State}

theorem agentReady_tickAgent_eq_false (h : s.tickPending = 0) : agentReady s .tickAgent = false :=
  decide_eq_false (by omega)

theorem agentReady_otherHost_eq_false (h : s.otherPending = []) : agentReady s .otherHost = false := by
  rw [agentReady, otherReady, h]
  rfl

theorem agentReady_host_eq_false (hrun : s.hostRun = none) (hpend : s.hostPending = []) : agentReady s .host = false := by
  rw [agentReady, hostReady, hrun, hpend]
  rfl

theorem stepWith_of_host (pick : Nat → Agent) (ht : s.tickPending = 0) (ho : s.otherPending = [])
    (hr : hostReady s = true) :
    stepWith pick s = issueHost s :=
  stepWith_of_only (a := .host) hr (fun b hb => by
    cases b with
    | tickAgent => rw [agentReady_tickAgent_eq_false ht] at hb; cases hb
    | host => rfl
    | otherHost => rw [agentReady_otherHost_eq_false ho] at hb; cases hb) pick

theorem stepWith_of_tickAgent (pick : Nat → Agent) (ht : 0 < s.tickPending) (ho : s.otherPending = [])
    (hrun : s.hostRun = none) (hpend : s.hostPending = []) : stepWith pick s = issueTick s :=
  stepWith_of_only (a := .tickAgent) (decide_eq_true ht) (fun b hb => by
    cases b with
    | tickAgent => rfl
    | host => rw [agentReady_host_eq_false hrun hpend] at hb; cases hb
    | otherHost => rw [agentReady_otherHost_eq_false ho] at hb; cases hb) pick

theorem stepWith_of_otherHost (pick : Nat → Agent) (ht : s.tickPending = 0) (ho : s.otherPending ≠ [])
    (hrun : s.hostRun = none) (hpend : s.hostPending = []) : stepWith pick s = issueOther s :=
  stepWith_of_only (a := .otherHost) (by simpa [agentReady, otherReady] using ho) (fun b hb => by
    cases b with
    | tickAgent => rw [agentReady_tickAgent_eq_false ht] at hb; cases hb
    | host => rw [agentReady_host_eq_false hrun hpend] at hb; cases hb
    | otherHost => rfl) pick

theorem hostReady_of_command {p : Procedure} {i : Instr} (hrun : s.hostRun = some p) (hc : p.command = some i) :
    hostReady s = true := by
  rw [hostReady, hrun]
  show p.command.isSome = true
  rw [hc]
  rfl

theorem hostReady_of_pending {o : HostOp} {rest : List HostOp} (hrun : s.hostRun = none)
    (hpend : s.hostPending = o :: rest) :
    hostReady s = true := by
  rw [hostReady, hrun, hpend]
  rfl

/-! ### The host's next command -/

theorem issueHost_of_command {p : Procedure} {i : Instr} (hrun : s.hostRun = some p) (hc : p.command = some i) :
    issueHost s = resumeHost p s (exec i s) := by
  rw [issueHost, hrun]
  show (match p.command with | some i => resumeHost p s (execWord (encode i) s) | none => .fault .noCommand) = _
  rw [hc]
  exact congrArg (resumeHost p s) (execWord_encode i s)

theorem issueHost_of_word {w : Word} {rest : List HostOp} (hrun : s.hostRun = none)
    (hpend : s.hostPending = .word w :: rest) :
    issueHost s = execWord w { s with hostPending := rest } := by
  rw [issueHost, hrun, hpend]

theorem issueHost_of_crossfade {a t : BufferIndex} {rest : List HostOp} (hrun : s.hostRun = none)
    (hpend : s.hostPending = .crossfade a t :: rest) :
    issueHost s = exec crossfadeStart { s with hostPending := rest, hostRun := some (.crossfade ⟨a, t, .poll⟩) } := by
  rw [issueHost, hrun, hpend]
  exact execWord_encode _ _

theorem issueHost_of_awaitDone {rest : List HostOp} (hrun : s.hostRun = none)
    (hpend : s.hostPending = .awaitDone :: rest) :
    issueHost s = resumeHost .awaitDone s (exec .dtake { s with hostPending := rest }) := by
  rw [issueHost, hrun, hpend]
  exact congrArg (resumeHost .awaitDone s) (execWord_encode _ _)

theorem issueOther_of_word {w : Word} {rest : List Word} (hpend : s.otherPending = w :: rest) :
    issueOther s = execWord w { s with otherPending := rest } := by
  rw [issueOther, hpend]

end OneAgent

/-! ### The statements about one step -/

/-- Settles O42: with one agent ready, its command is the next step's; with two, one of them issues. -/
theorem stepRunsTheDecodedCommand : Obligations.StepRunsTheDecodedCommand := by
  refine ⟨fun s w i rest ht ho hrun hpend hw => ?_, fun s ht ho hrun hpend => ?_, fun s p i ht ho hrun hc => ?_,
    fun s rest ht ho hrun hpend => ?_, fun s w i rest ht hrun hpend ho hw => ?_, fun s w i hw => ?_,
    fun s a b hne ha hb => ?_⟩
  · rw [step, stepWith_of_host _ ht ho (hostReady_of_pending hrun hpend), issueHost_of_word hrun hpend, execWord_ok hw]
  · rw [step, stepWith_of_tickAgent _ ht ho hrun hpend]
    exact issueTick_eq s
  · rw [step, stepWith_of_host _ ht ho (hostReady_of_command hrun hc), issueHost_of_command hrun hc]
  · rw [step, stepWith_of_host _ ht ho (hostReady_of_pending hrun hpend), issueHost_of_awaitDone hrun hpend]
  · rw [step, stepWith_of_otherHost _ ht (by rw [ho]; exact List.cons_ne_nil _ _) hrun hpend, issueOther_of_word ho,
      execWord_ok hw]
  · have hdec : decode (BitVec.ofNat 32 (w % 2 ^ 32)) = .ok i := by
      rw [decodeTableWord] at hw
      split at hw
      · next j hj => rw [hj, Option.some.inj hw]
      · cases hw
    rw [step, stepWith_of_host _ rfl rfl (hostReady_of_pending rfl rfl), issueHost_of_word rfl rfl, execWord_ok hdec]
    rfl
  · obtain ⟨c, hc, _, hstep⟩ := stepWith_of_two ha hne hb Config.arbiter
    exact ⟨c, hc, hstep⟩

/-- R26: the agents' part put back after a command executed with other agents is what the command does in the state
itself. -/
theorem mapNext_withAgents_execWord (w : Word) (s : State) (g : AgentState) :
    mapNext (fun t => t.withAgents s.agents) (execWord w (s.withAgents g)) = execWord w s := by
  rw [execWord_withAgents]
  cases h : execWord w s with
  | next t => rw [mapNext, mapNext, State.withAgents_withAgents, ← execWord_agents h, State.withAgents_self]
  | fault r => rfl
  | refused r => rfl

/-- Settles O43: each of the three executes the TICK word, in the state with its own agents' part changed. -/
theorem tickIsTheSameFromEitherAgent : Obligations.TickIsTheSameFromEitherAgent := by
  have htick (s : State) (g : AgentState) :
      mapNext (fun t => t.withAgents s.agents) (execWord (encode .tick) (s.withAgents g)) = exec .tick s := by
    rw [mapNext_withAgents_execWord, execWord_encode]
  refine ⟨fun s => ?_, fun s rest hrun hpend => ?_, fun s rest hpend => ?_⟩
  · exact htick s { s.agents with tickPending := s.tickPending - 1 }
  · rw [issueHost_of_word hrun hpend]
    exact htick s { s.agents with hostPending := rest }
  · rw [issueOther_of_word hpend]
    exact htick s { s.agents with otherPending := rest }

/-- A ready agent of a state the refresh is defined in has a next state. -/
theorem exists_issueAs_eq_next {s : State} (hdef : refreshDefined s = true) {a : Agent} (ha : agentReady s a = true) :
    ∃ t, issueAs a s = .next t := by
  have hword (g : AgentState) (w : Word) : ∃ t, execWord w (s.withAgents g) = .next t :=
    exists_execWord_eq_next (s := s.withAgents g) hdef w
  cases a with
  | tickAgent => exact hword { s.agents with tickPending := s.tickPending - 1 } (encode .tick)
  | otherHost =>
    cases hpend : s.otherPending with
    | nil => rw [agentReady_otherHost_eq_false hpend] at ha; cases ha
    | cons w rest =>
      rw [issueAs, issueOther_of_word hpend]
      exact hword { s.agents with otherPending := rest } w
  | host =>
    rw [agentReady, hostReady] at ha
    cases hrun : s.hostRun with
    | some p =>
      rw [hrun] at ha
      obtain ⟨i, hi⟩ := Option.isSome_iff_exists.1 ha
      obtain ⟨t, ht⟩ := exists_exec_eq_next hdef i
      rw [issueAs, issueHost_of_command hrun hi, ht]
      exact ⟨_, rfl⟩
    | none =>
      cases hpend : s.hostPending with
      | nil => rw [hrun, hpend] at ha; cases ha
      | cons o rest =>
        rw [issueAs]
        cases o with
        | word w =>
          rw [issueHost_of_word hrun hpend]
          exact hword { s.agents with hostPending := rest } w
        | crossfade x y =>
          rw [issueHost_of_crossfade hrun hpend, crossfadeStart, exec_stw]
          exact ⟨_, rfl⟩
        | awaitDone =>
          rw [issueHost_of_awaitDone hrun hpend, exec_dtake]
          exact ⟨_, rfl⟩

/-- R102: the only procedure without a next command is the hung crossfade. -/
theorem hung_of_command_eq_none {p : Procedure} (h : p.command = none) :
    ∃ c : Crossfade, p = .crossfade c ∧ c.phase = .hung := by
  cases p with
  | awaitDone => cases h
  | crossfade c =>
    refine ⟨c, rfl, ?_⟩
    rw [Procedure.command, Crossfade.command] at h
    cases hp : c.phase with
    | hung => rfl
    | _ => rw [hp] at h; cases h

/-- Settles O35: a ready agent's command completes; with none ready, the fields of all three say why. -/
theorem stepStopsOnlyWithoutACommand : Obligations.StepStopsOnlyWithoutACommand := by
  intro s h
  rcases arbitrate_cases Config.arbiter s with ⟨harb, hnone⟩ | ⟨a, n, harb, ha, _⟩
  · refine .inr ⟨by rw [step, stepWith, harb], ?_, ?_, ?_⟩
    · exact Nat.eq_zero_of_not_pos (of_decide_eq_false (hnone .tickAgent))
    · simpa [agentReady, otherReady] using hnone .otherHost
    · have hhost := hnone .host
      rw [agentReady, hostReady] at hhost
      cases hrun : s.hostRun with
      | none =>
        rw [hrun] at hhost
        exact .inl ⟨rfl, by simpa using hhost⟩
      | some p =>
        rw [hrun] at hhost
        obtain ⟨c, rfl, hc⟩ := hung_of_command_eq_none (Option.isNone_iff_eq_none.1 (Option.isSome_eq_false_iff.1 hhost))
        exact .inr ⟨c, rfl, hc⟩
  · obtain ⟨t, ht⟩ := exists_issueAs_eq_next (s := { s with draws := n }) h.refreshDefined ha
    exact .inl ⟨t, by rw [step, stepWith, harb]; exact ht⟩

/-! ### What a step did, agent by agent -/

/-- What one step did: the command of one of the issuers executed on the block, and the agents' part after it, `n`
being the draws then counted (R38). -/
inductive Issued (s : State) : State → Prop where
  | tick {v : State} (n : Nat) (hpos : 0 < s.tickPending) (hv : exec .tick s = .next v) :
      Issued s (v.withAgents ⟨s.tickPending - 1, s.hostPending, s.hostRun, s.otherPending, n⟩)
  | other {w : Word} {rest : List Word} {v : State} (n : Nat) (hother : s.otherPending = w :: rest)
      (hv : execWord w s = .next v) :
      Issued s (v.withAgents ⟨s.tickPending, s.hostPending, s.hostRun, rest, n⟩)
  | procedure {p : Procedure} {i : Instr} {v : State} (n : Nat) (hrun : s.hostRun = some p) (hc : p.command = some i)
      (hv : exec i s = .next v) :
      Issued s (v.withAgents ⟨s.tickPending, s.hostPending, p.resume (newResponse s v), s.otherPending, n⟩)
  | word {w : Word} {rest : List HostOp} {v : State} (n : Nat) (hrun : s.hostRun = none)
      (hpend : s.hostPending = .word w :: rest) (hv : execWord w s = .next v) :
      Issued s (v.withAgents ⟨s.tickPending, rest, none, s.otherPending, n⟩)
  | crossfade {a b : BufferIndex} {rest : List HostOp} {v : State} (n : Nat) (hrun : s.hostRun = none)
      (hpend : s.hostPending = .crossfade a b :: rest) (hv : exec crossfadeStart s = .next v) :
      Issued s (v.withAgents ⟨s.tickPending, rest, some (.crossfade ⟨a, b, .poll⟩), s.otherPending, n⟩)
  | awaitDone {rest : List HostOp} {v : State} (n : Nat) (hrun : s.hostRun = none)
      (hpend : s.hostPending = .awaitDone :: rest) (hv : exec .dtake s = .next v) :
      Issued s (v.withAgents ⟨s.tickPending, rest, Procedure.awaitDone.resume (newResponse s v), s.otherPending, n⟩)

theorem Issued.of_stepWith {pick : Nat → Agent} {s t : State} (h : stepWith pick s = .next t) : Issued s t := by
  obtain ⟨a, n, hready, _, ha⟩ := stepWith_cases h
  cases a with
  | tickAgent =>
    obtain ⟨v, hv, rfl⟩ := execWord_of_withAgents (s := s) (w := encode .tick)
      ⟨s.tickPending - 1, s.hostPending, s.hostRun, s.otherPending, n⟩ ha
    rw [execWord_encode] at hv
    exact .tick n (of_decide_eq_true hready) hv
  | otherHost =>
    obtain ⟨w, rest, hother, hw⟩ := issueOther_cases ha
    obtain ⟨v, hv, rfl⟩ := execWord_of_withAgents (s := s) ⟨s.tickPending, s.hostPending, s.hostRun, rest, n⟩ hw
    exact .other n hother hv
  | host =>
    rcases issueHost_cases ha with ⟨p, i, u, hrun, hc, hu, rfl⟩ | ⟨w, rest, hrun, hpend, hw⟩ |
      ⟨x, y, rest, hrun, hpend, hw⟩ | ⟨rest, u, hrun, hpend, hu, rfl⟩
    · obtain ⟨v, hv, rfl⟩ := execWord_of_withAgents (s := s)
        ⟨s.tickPending, s.hostPending, s.hostRun, s.otherPending, n⟩ hu
      rw [execWord_encode] at hv
      exact .procedure (v := v) n hrun hc hv
    · obtain ⟨v, hv, rfl⟩ := execWord_of_withAgents (s := s) ⟨s.tickPending, rest, s.hostRun, s.otherPending, n⟩ hw
      rw [show s.hostRun = none from hrun]
      exact .word n hrun hpend hv
    · obtain ⟨v, hv, rfl⟩ := execWord_of_withAgents (s := s)
        ⟨s.tickPending, rest, some (.crossfade ⟨x, y, .poll⟩), s.otherPending, n⟩ hw
      rw [execWord_encode] at hv
      exact .crossfade n hrun hpend hv
    · obtain ⟨v, hv, rfl⟩ := execWord_of_withAgents (s := s) ⟨s.tickPending, rest, s.hostRun, s.otherPending, n⟩ hu
      rw [execWord_encode] at hv
      exact .awaitDone (v := v) n hrun hpend hv

end Sys2Proof.Proofs
end

/-! ## Proofs: runs and interleavings (20_memory.md R38, 60_exceptions.md R104) -/
section
namespace Sys2Proof.Proofs
open Sys2Proof.Machine

/-! ### Words executed with other agents -/

theorem execWords_agents {ws : List Word} {s t : State} (h : execWords ws s = .next t) : t.agents = s.agents := by
  induction ws generalizing s with
  | nil => cases h; rfl
  | cons w ws ih =>
    obtain ⟨u, hu, hr⟩ := execWords_cons_inv h
    exact (ih hr).trans (execWord_agents hu)

/-- A word executed first, then words that ran with the agents `g`: the words in a row, with the agents of the start. -/
theorem execWords_cons_of_withAgents {w : Word} {ws : List Word} {s v t : State} {g h : AgentState}
    (hw : execWord w s = .next v) (hr : execWords ws (v.withAgents g) = .next (t.withAgents h)) :
    execWords (w :: ws) s = .next (t.withAgents s.agents) := by
  have hback := execWords_withAgents ws (v.withAgents g) v.agents
  rw [State.withAgents_withAgents, State.withAgents_self, hr] at hback
  rw [execWords_cons hw, hback, mapNext, State.withAgents_withAgents, execWord_agents hw]

/-! ### Every run is an interleaving -/

/-- A run of `k + 1` steps with a next state is a step and a run of `k`. -/
theorem runWith_succ_inv {pick : Nat → Agent} {k : Nat} {s t : State} (h : runWith pick (k + 1) s = .next t) :
    ∃ u, stepWith pick s = .next u ∧ runWith pick k u = .next t := by
  rw [runWith] at h
  split at h
  · next u hu => exact ⟨u, hu, h⟩
  · cases h
  · cases h

theorem runWith_succ {pick : Nat → Agent} {k : Nat} {s u : State} (h : stepWith pick s = .next u) :
    runWith pick (k + 1) s = runWith pick k u := by
  rw [runWith, h]

/-- Settles O44: by induction on the steps, the word of each put before the interleavings of the rest of the run. -/
theorem everyRunIsAnInterleaving : Obligations.EveryRunIsAnInterleaving := by
  intro pick k
  induction k with
  | zero =>
    intro s t ws hrun hpend h
    cases h
    exact ⟨0, [], ws, [], [], [], Nat.zero_le _, rfl, rfl, hpend, hrun, rfl, .nil, .nil, rfl, rfl⟩
  | succ k ih =>
    intro s t ws hrun hpend h
    obtain ⟨u, hu, hr⟩ := runWith_succ_inv h
    cases Issued.of_stepWith hu with
    | tick d hpos hv =>
      obtain ⟨n, done, rest, others, hostOrder, order, hn, htick, hws, hhost, hrun', hoth, hi, ho, hlen, hexec⟩ :=
        ih _ t ws (by exact hrun) (by exact hpend) hr
      simp only [State.withAgents_tickPending] at hn htick
      exact ⟨n + 1, done, rest, others, hostOrder, encode .tick :: order, by omega, by omega, hws, hhost, hrun', hoth, hi,
        .left _ ho, congrArg (· + 1) hlen, execWords_cons_of_withAgents ((execWord_encode _ _).trans hv) hexec⟩
    | @other w rest' _ d hother hv =>
      obtain ⟨n, done, rest, others, hostOrder, order, hn, htick, hws, hhost, hrun', hoth, hi, ho, hlen, hexec⟩ :=
        ih _ t ws (by exact hrun) (by exact hpend) hr
      exact ⟨n, done, rest, w :: others, w :: hostOrder, w :: order, hn, htick, hws, hhost, hrun',
        hother.trans (congrArg (w :: ·) hoth), .right w hi, .right w ho, congrArg (· + 1) hlen,
        execWords_cons_of_withAgents hv hexec⟩
    | procedure _ hp => cases hrun.symm.trans hp
    | @word w pend _ d _ hw hv =>
      obtain ⟨w', ws', rfl, hw', rfl⟩ := List.map_eq_cons_iff.1 (hpend.symm.trans hw)
      cases hw'
      obtain ⟨n, done, rest, others, hostOrder, order, hn, htick, rfl, hhost, hrun', hoth, hi, ho, hlen, hexec⟩ :=
        ih _ t ws' (by rfl) (by rfl) hr
      exact ⟨n, w :: done, rest, others, w :: hostOrder, w :: order, hn, htick, rfl, hhost, hrun', hoth, .left w hi,
        .right w ho, congrArg (· + 1) hlen, execWords_cons_of_withAgents hv hexec⟩
    | crossfade _ _ hc =>
      obtain ⟨_, _, _, hw', _⟩ := List.map_eq_cons_iff.1 (hpend.symm.trans hc)
      cases hw'
    | awaitDone _ _ hc =>
      obtain ⟨_, _, _, hw', _⟩ := List.map_eq_cons_iff.1 (hpend.symm.trans hc)
      cases hw'

/-! ### Every interleaving is a run -/

/-- No agent's command draws. -/
theorem draws_of_issueAs {a : Agent} {s t : State} (h : issueAs a s = .next t) : t.draws = s.draws := by
  have hword {w : Word} {u v : State} (hv : execWord w u = .next v) : v.draws = u.draws :=
    congrArg AgentState.draws (execWord_agents hv)
  cases a with
  | tickAgent => exact (hword (w := encode .tick) (u := { s with tickPending := s.tickPending - 1 }) h :)
  | otherHost =>
    obtain ⟨w, rest, _, hw⟩ := issueOther_cases h
    exact (hword hw :)
  | host =>
    rcases issueHost_cases h with ⟨_, _, u, _, _, hu, rfl⟩ | ⟨_, _, _, _, hw⟩ | ⟨_, _, _, _, _, hw⟩ |
      ⟨_, u, _, _, hu, rfl⟩
    · exact (hword hu :)
    · exact (hword hw :)
    · exact (hword hw :)
    · exact (hword hu :)

/-- A run reads the choices from its counter on. -/
theorem runWith_congr {pick pick' : Nat → Agent} {k : Nat} {s : State} (h : ∀ n, s.draws ≤ n → pick n = pick' n) :
    runWith pick k s = runWith pick' k s := by
  induction k generalizing s with
  | zero => rfl
  | succ k ih =>
    have hstep : stepWith pick s = stepWith pick' s := by rw [stepWith, stepWith, arbitrate, arbitrate, h _ le_rfl]
    rw [runWith, runWith, hstep]
    cases hs : stepWith pick' s with
    | next t =>
      obtain ⟨a, n, _, hn, ha⟩ := stepWith_cases hs
      have hd : t.draws = n := draws_of_issueAs ha
      exact ih fun m hm => h m (by omega)
    | fault r => rfl
    | refused r => rfl

/-- A ready agent can be made to go first: whatever the draw counter then is, the choices of the rest of the run are
still free. -/
theorem exists_pick_succ {s v : State} {a : Agent} {w : Word} {g : Nat → AgentState} {k : Nat} {P : State → Prop}
    (ha : agentReady s a = true) (hissue : ∀ n, issueAs a { s with draws := n } = execWord w (s.withAgents (g n)))
    (hdraws : ∀ n, (g n).draws = n) (hw : execWord w s = .next v)
    (hrest : ∀ n, ∃ pick u, runWith pick k (v.withAgents (g n)) = .next u ∧ P u) :
    ∃ pick u, runWith pick (k + 1) s = .next u ∧ P u := by
  have hnext (n : Nat) : issueAs a { s with draws := n } = .next (v.withAgents (g n)) := by
    rw [hissue, execWord_withAgents, hw]
    rfl
  by_cases honly : ∀ b, agentReady s b = true → b = a
  · obtain ⟨pick, u, hu, hP⟩ := hrest s.draws
    exact ⟨pick, u, (runWith_succ ((stepWith_of_only ha honly pick).trans (hnext s.draws))).trans hu, hP⟩
  · push Not at honly
    obtain ⟨b, hb, hne⟩ := honly
    obtain ⟨pick, u, hu, hP⟩ := hrest (s.draws + 1)
    obtain ⟨c, _, hc, hstep⟩ := stepWith_of_two ha hne.symm hb (Function.update pick s.draws a)
    rw [Function.update_self] at hc
    rw [hc ha, hnext] at hstep
    refine ⟨Function.update pick s.draws a, u, (runWith_succ hstep).trans (.trans (runWith_congr fun n hn => ?_) hu), hP⟩
    rw [State.withAgents_draws, hdraws] at hn
    exact Function.update_of_ne (by omega) _ _

theorem Interleaving.nil_inv {xs ys : List Word} (h : Interleaving xs ys []) : xs = [] ∧ ys = [] := by
  cases h
  exact ⟨rfl, rfl⟩

theorem Interleaving.cons_inv {xs ys zs : List Word} {z : Word} (h : Interleaving xs ys (z :: zs)) :
    (∃ xs', xs = z :: xs' ∧ Interleaving xs' ys zs) ∨ ∃ ys', ys = z :: ys' ∧ Interleaving xs ys' zs := by
  cases h with
  | left _ h => exact .inl ⟨_, rfl, h⟩
  | right _ h => exact .inr ⟨_, rfl, h⟩

/-- Settles O45: by induction on the order, the agent of its first word going first. -/
theorem everyInterleavingIsARun : Obligations.EveryInterleavingIsARun := by
  intro s t ws hostOrder order
  induction order generalizing s t ws hostOrder with
  | nil =>
    intro hrun hpend hi ho h
    cases h
    obtain ⟨htick, rfl⟩ := Interleaving.nil_inv ho
    obtain ⟨rfl, hother⟩ := Interleaving.nil_inv hi
    exact ⟨fun _ => .host, s, rfl, rfl, (List.replicate_eq_nil_iff _).1 htick, hpend, hother⟩
  | cons w order ih =>
    intro hrun hpend hi ho h
    obtain ⟨v, hv, hr⟩ := execWords_cons_inv h
    have hagents : t.agents = s.agents := execWords_agents h
    -- The rest of the order, run with the agents that are left after the first word.
    have hrest {ws' hostOrder' : List Word} (g : AgentState) (hgrun : g.hostRun = none)
        (hgpend : g.hostPending = ws'.map .word)
        (hgi : Interleaving ws' g.otherPending hostOrder')
        (hgo : Interleaving (List.replicate g.tickPending (encode .tick)) hostOrder' order) :
        ∃ pick u, runWith pick order.length (v.withAgents g) = .next u ∧ u.withAgents s.agents = t ∧
          u.tickPending = 0 ∧ u.hostPending = [] ∧ u.otherPending = [] := by
      have hexec : execWords order (v.withAgents g) = .next (t.withAgents g) := by
        rw [execWords_withAgents, hr]
        rfl
      obtain ⟨pick, u, hu, hut, hleft⟩ := ih (v.withAgents g) _ ws' hostOrder' hgrun hgpend hgi hgo hexec
      refine ⟨pick, u, hu, ?_, hleft⟩
      have hback := congrArg (fun x => x.withAgents s.agents) hut
      simpa only [State.withAgents_withAgents, ← hagents, State.withAgents_self] using hback
    rcases Interleaving.cons_inv ho with ⟨ticks, hticks, ho'⟩ | ⟨hostOrder', rfl, ho'⟩
    · obtain ⟨n, hn⟩ : ∃ n, s.tickPending = n + 1 :=
        Nat.exists_eq_succ_of_ne_zero fun h0 => by rw [h0] at hticks; cases hticks
      rw [hn, List.replicate_succ, List.cons.injEq] at hticks
      obtain ⟨rfl, rfl⟩ := hticks
      have hready : agentReady s .tickAgent = true := decide_eq_true (by omega)
      refine exists_pick_succ (g := fun d => ⟨n, s.hostPending, s.hostRun, s.otherPending, d⟩) hready (fun d => ?_)
        (fun _ => rfl) hv fun d => hrest _ hrun hpend hi ho'
      show execWord (encode .tick) (s.withAgents ⟨s.tickPending - 1, s.hostPending, s.hostRun, s.otherPending, d⟩) = _
      rw [hn]
      rfl
    · rcases Interleaving.cons_inv hi with ⟨rest, rfl, hi'⟩ | ⟨rest, hother, hi'⟩
      · exact exists_pick_succ (g := fun d => ⟨s.tickPending, rest.map .word, s.hostRun, s.otherPending, d⟩)
          (a := .host) (hostReady_of_pending hrun hpend)
          (fun d => issueHost_of_word (s := { s with draws := d }) hrun hpend)
          (fun _ => rfl) hv fun d => hrest _ hrun rfl hi' ho'
      · have hready : agentReady s .otherHost = true := by
          rw [agentReady, otherReady, hother]
          rfl
        exact exists_pick_succ (g := fun d => ⟨s.tickPending, s.hostPending, s.hostRun, rest, d⟩) hready
          (fun d => issueOther_of_word (s := { s with draws := d }) hother)
          (fun _ => rfl) hv fun d => hrest _ hrun hpend hi' ho'

end Sys2Proof.Proofs
end

/-! ## Proofs: the host's operations on the segments (45_host_procedures.md R95, R96, 70_reset_and_hazards.md R122) -/
section
namespace Sys2Proof.Proofs
open Sys2Proof.Machine

/-! ### A list of segment writes -/

/-- The word of a segment write. -/
def writeWord (x : SegmentWrite) : Word := encode (.segw x.b x.i x.v)

/-- The write is to this segment. -/
def writesTo (b : BufferIndex) (i : SegmentIndex) (x : SegmentWrite) : Bool := x.b == b && x.i == i

/-- The last value a list of writes gives a segment, if it writes it. -/
def lastWritten (writes : List SegmentWrite) (b : BufferIndex) (i : SegmentIndex) : Option Byte :=
  (writes.reverse.find? (writesTo b i)).map (·.v)

section LastWritten
variable {writes : List SegmentWrite} {b : BufferIndex} {i : SegmentIndex}

theorem writesTo_iff {x : SegmentWrite} : writesTo b i x = true ↔ x.b = b ∧ x.i = i := by
  rw [writesTo, Bool.and_eq_true, beq_iff_eq, beq_iff_eq]

theorem lastWritten_cons (x : SegmentWrite) :
    lastWritten (x :: writes) b i = (lastWritten writes b i).or (if x.b = b ∧ x.i = i then some x.v else none) := by
  rw [lastWritten, List.reverse_cons, List.find?_append, Option.map_or, ← lastWritten, List.find?_singleton]
  simp only [writesTo_iff]
  split_ifs <;> rfl

theorem lastWritten_append_singleton (x : SegmentWrite) :
    lastWritten (writes ++ [x]) b i = if x.b = b ∧ x.i = i then some x.v else lastWritten writes b i := by
  rw [lastWritten, List.reverse_append, List.reverse_singleton, List.singleton_append]
  by_cases h : x.b = b ∧ x.i = i
  · rw [List.find?_cons_of_pos (writesTo_iff.2 h), if_pos h]
    rfl
  · rw [List.find?_cons_of_neg (writesTo_iff.not.2 h), if_neg h, ← lastWritten]

theorem lastWritten_eq_none (h : ∀ x ∈ writes, x.b = b → x.i ≠ i) : lastWritten writes b i = none := by
  rw [lastWritten, Option.map_eq_none_iff, List.find?_eq_none]
  intro x hx hsame
  obtain ⟨hb, hi⟩ := writesTo_iff.1 hsame
  exact h x (List.mem_reverse.1 hx) hb hi

theorem lastWritten_eq_some {v : Byte} (hex : ∃ x ∈ writes, x.b = b ∧ x.i = i) (hall : ∀ x ∈ writes, x.v = v) :
    lastWritten writes b i = some v := by
  obtain ⟨x, hx, hsame⟩ := hex
  have hsome : (writes.reverse.find? (writesTo b i)).isSome = true :=
    List.find?_isSome.2 ⟨x, List.mem_reverse.2 hx, writesTo_iff.2 hsame⟩
  obtain ⟨y, hy⟩ := Option.isSome_iff_exists.1 hsome
  rw [lastWritten, hy, Option.map_some, hall y (List.mem_reverse.1 (List.mem_of_find?_eq_some hy))]

end LastWritten

/-- R122, R123: legal writes executed one after the other leave in each segment the last value written to it, or what
it held; and they change nothing but SEG. -/
theorem execWords_writes {s : State} {writes : List SegmentWrite}
    (h : ∀ x ∈ writes, x.b.toNat < s.numBuffers ∧ x.v.toNat ≤ 9) :
    ∃ t, execWords (writes.map writeWord) s = .next t ∧ t = { s with seg := t.seg } ∧
      ∀ b i, readSegment t b i = (lastWritten writes b i).getD (readSegment s b i) := by
  induction writes generalizing s with
  | nil => exact ⟨s, rfl, rfl, fun _ _ => rfl⟩
  | cons x writes ih =>
    obtain ⟨hb, hv⟩ := h x List.mem_cons_self
    obtain ⟨t, ht, hseg, hread⟩ := ih (s := writeSegment s x.b x.i x.v) fun y hy => h y (List.mem_cons_of_mem _ hy)
    refine ⟨t, (execWords_encode_cons (exec_segw_of_legal hb x.i hv) _).trans ht, hseg, fun b i => ?_⟩
    rw [hread, lastWritten_cons, readSegment_writeSegment]
    cases lastWritten writes b i with
    | some v => rfl
    | none => simp only [Option.none_or, eq_comm]; split_ifs <;> rfl

/-! ### The boot sequence -/

/-- Settles O48: the writes, then SEL, SETRATE and DEN, none of which emits or faults. -/
theorem bootSequenceEndsReadyToShow : Obligations.BootSequenceEndsReadyToShow := by
  intro n writes b r hlegal hb
  obtain ⟨t, ht, hseg, hread⟩ := execWords_writes (s := State.powerOn n) hlegal
  have hsel : exec (.sel b) t = .next { t with act := b } := exec_sel_of_present (by rw [hseg]; exact hb)
  have hrate (r : BitVec 2) : maskedWrite (maskedWrite 0 (statusOperand 0x03) (statusOperand (r.zeroExtend 7)))
      (statusOperand 0x40) (statusOperand 0x40) = 0x40 ||| r.zeroExtend 8 := by
    revert r
    decide
  refine ⟨writes.map writeWord ++ [encode (.sel b), encode (.stw (r.zeroExtend 7) 0x03), encode (.stw 0x40 0x40)],
    maskStatus (statusOperand 0x40) (statusOperand 0x40) (maskStatus (statusOperand 0x03) (statusOperand (r.zeroExtend 7))
      { t with act := b }), ?_, ?_, fun b' i => (hread b' i).trans ?_, rfl, ?_⟩
  · simp [bootSequence, HostOperation.ops, writeWord, Function.comp_def]
  · rw [execWords_append ht, execWords_encode_cons hsel, execWords_encode_cons (exec_stw _ _ _)]
    exact execWords_encode_cons (exec_stw _ _ _) []
  · rw [readSegment_powerOn]
    rfl
  · rw [hseg]
    exact ⟨rfl, hrate r, rfl, rfl, rfl⟩

/-! ### The stream reset -/

/-- The 64 writes of a stream reset. -/
def resetWrites (b : BufferIndex) : List SegmentWrite := (List.range 64).map fun i => ⟨b, BitVec.ofNat 6 i, 0⟩

/-- Settles O49: each segment of the buffer is among the 64 written, and no other. -/
theorem streamResetClearsTheBuffer : Obligations.StreamResetClearsTheBuffer := by
  intro s b hb
  have hmem {x : SegmentWrite} (hx : x ∈ resetWrites b) : x.b = b ∧ x.v = 0 := by
    obtain ⟨i, _, rfl⟩ := List.mem_map.1 hx
    exact ⟨rfl, rfl⟩
  obtain ⟨t, ht, hseg, hread⟩ := execWords_writes (s := s) (writes := resetWrites b) fun x hx => by
    obtain ⟨hxb, hxv⟩ := hmem hx
    rw [hxb, hxv]
    exact ⟨hb, Nat.zero_le 9⟩
  refine ⟨_, t, ?_, ?_, ht, hseg, fun i => ?_, fun b' i hne => ?_⟩
  · simp [HostOperation.ops, resetWrites, writeWord, Config.numSegments, Function.comp_def]
  · simp [resetWrites]
  · have hin : (⟨b, i, 0⟩ : SegmentWrite) ∈ resetWrites b :=
      List.mem_map.2 ⟨i.toNat, List.mem_range.2 i.isLt, by simp⟩
    rw [hread, lastWritten_eq_some ⟨_, hin, rfl, rfl⟩ fun x hx => (hmem hx).2]
    rfl
  · rw [hread, lastWritten_eq_none fun x hx hxb => absurd ((hmem hx).1.symm.trans hxb).symm hne]
    rfl

/-! ### A digit -/

/-- The ten writes that blank a tube, and the one of the digit. -/
def digitWrites (b : BufferIndex) (p : Fin 6) (d : Fin 10) (v : Byte) : List SegmentWrite :=
  ((List.finRange 10).map fun d' => ⟨b, segmentOf (.digit p d'), 0⟩) ++ [⟨b, segmentOf (.digit p d), v⟩]

theorem segmentOf_injective : Function.Injective segmentOf := Function.LeftInverse.injective elementOf_segmentOf

theorem segmentOf_digit_eq_iff {p : Fin 6} {d d' : Fin 10} :
    segmentOf (.digit p d) = segmentOf (.digit p d') ↔ d = d' := by
  rw [segmentOf_injective.eq_iff]
  simp

theorem writeDigit_eq (b : BufferIndex) (p : Fin 6) (d : Fin 10) (v : Byte) :
    writeDigit b p d v = (digitWrites b p d v).map writeWord := by
  simp [writeDigit, blankTube, writeElement, digitWrites, writeWord, Function.comp_def, ← List.map_eq_flatMap]

/-- Settles O50: the digit's segment is written last, and the tube's other nine by the blanking alone. -/
theorem digitWriteShowsExactlyTheDigit : Obligations.DigitWriteShowsExactlyTheDigit := by
  intro s b p d v hb hv
  have hmem {x : SegmentWrite} (hx : x ∈ (List.finRange 10).map fun d' => ⟨b, segmentOf (.digit p d'), 0⟩) :
      x.b = b ∧ (∃ d', x.i = segmentOf (.digit p d')) ∧ x.v = 0 := by
    obtain ⟨d', _, rfl⟩ := List.mem_map.1 hx
    exact ⟨rfl, ⟨d', rfl⟩, rfl⟩
  obtain ⟨t, ht, hseg, hread⟩ := execWords_writes (s := s) (writes := digitWrites b p d v) fun x hx => by
    rcases List.mem_append.1 hx with hx | hx
    · obtain ⟨hxb, _, hxv⟩ := hmem hx
      rw [hxb, hxv]
      exact ⟨hb, Nat.zero_le 9⟩
    · rw [List.mem_singleton.1 hx]
      exact ⟨hb, hv⟩
  refine ⟨t, writeDigit_eq b p d v ▸ ht, hseg, fun d' => ?_, fun b' i hother => ?_⟩
  · rw [hread, digitWrites, lastWritten_append_singleton]
    by_cases hd : d' = d
    · rw [if_pos ⟨rfl, by rw [hd]⟩, if_pos hd]
      rfl
    · have hin : (⟨b, segmentOf (.digit p d'), 0⟩ : SegmentWrite) ∈
          (List.finRange 10).map fun d' => ⟨b, segmentOf (.digit p d'), 0⟩ :=
        List.mem_map.2 ⟨d', List.mem_finRange d', rfl⟩
      rw [if_neg fun h => hd (segmentOf_digit_eq_iff.1 h.2).symm, if_neg hd,
        lastWritten_eq_some ⟨_, hin, rfl, rfl⟩ fun x hx => (hmem hx).2.2]
      rfl
  · have hne (d'' : Fin 10) (hb'' : b = b') : segmentOf (.digit p d'') ≠ i := fun h =>
      hother.elim (fun hb' => hb' hb''.symm) fun hi => hi d'' h.symm
    rw [hread, digitWrites, lastWritten_append_singleton, if_neg fun h => hne d h.1 h.2,
      lastWritten_eq_none fun x hx hxb => ?_]
    · rfl
    · obtain ⟨hxb', ⟨d'', hxi⟩, _⟩ := hmem hx
      rw [hxi]
      exact hne d'' (hxb'.symm.trans hxb)

end Sys2Proof.Proofs
end

/-! ## Proofs: the host's procedures, step by step (45_host_procedures.md R87 to R89, R93) -/
section
namespace Sys2Proof.Proofs
open Sys2Proof.Machine

/-! ### The response to a command -/

theorem newResponse_of_append {s t : State} {v : Byte} (h : t.responses = s.responses ++ [v]) :
    newResponse s t = some v := by
  rw [newResponse, h, List.getElem?_concat_length]

theorem newResponse_of_eq {s t : State} (h : t.responses = s.responses) : newResponse s t = none := by
  rw [newResponse, h, List.getElem?_eq_none le_rfl]

theorem newResponse_respond (v : Byte) (s : State) : newResponse s (respond v s) = some v :=
  newResponse_of_append rfl

theorem newResponse_raiseFault (code : FaultCode) (w : Word) (s : State) : newResponse s (raiseFault code w s) = none :=
  newResponse_of_eq rfl

/-- The procedure's command, executed, and where the host then stands. -/
theorem issueHost_eq_next {s u : State} {p : Procedure} {i : Instr} (hrun : s.hostRun = some p) (hc : p.command = some i)
    (hu : exec i s = .next u) : issueHost s = .next { u with hostRun := p.resume (newResponse s u) } := by
  rw [issueHost_of_command hrun hc, hu]
  rfl

/-! ### Fields of STATUS under a mask -/

section Fields
variable {m : Byte} {lo n : Nat}

theorem extractLsb'_maskedWrite_of_set (hm : ∀ j < n, m.getLsbD (lo + j) = true) (w d : Byte) :
    (maskedWrite w m d).extractLsb' lo n = d.extractLsb' lo n := by
  refine BitVec.eq_of_getLsbD_eq fun j hj => ?_
  rw [BitVec.getLsbD_extractLsb', BitVec.getLsbD_extractLsb', getLsbD_maskedWrite, if_pos (hm j hj)]

theorem extractLsb'_maskedWrite_of_clear (hm : ∀ j < n, m.getLsbD (lo + j) = false) (w d : Byte) :
    (maskedWrite w m d).extractLsb' lo n = w.extractLsb' lo n := by
  refine BitVec.eq_of_getLsbD_eq fun j hj => ?_
  rw [BitVec.getLsbD_extractLsb', BitVec.getLsbD_extractLsb', getLsbD_maskedWrite, hm j hj]
  rfl

end Fields

/-- R89: a write of STEP and EN, the mask 0x4C, with EN 1: RATE, DONE and ONE stay. -/
theorem maskedWrite_STEP_EN {w d : Byte} (hd : d.getLsbD 6 = true) :
    (maskedWrite w 0x4C d).extractLsb' 2 2 = d.extractLsb' 2 2 ∧
    (maskedWrite w 0x4C d).extractLsb' 0 2 = w.extractLsb' 0 2 ∧
    (maskedWrite w 0x4C d).getLsbD 4 = w.getLsbD 4 ∧ (maskedWrite w 0x4C d).getLsbD 5 = w.getLsbD 5 ∧
    (maskedWrite w 0x4C d).getLsbD 6 = true :=
  ⟨extractLsb'_maskedWrite_of_set (by decide) w d, extractLsb'_maskedWrite_of_clear (by decide) w d,
    getLsbD_maskedWrite w _ d 4, getLsbD_maskedWrite w _ d 5, (getLsbD_maskedWrite w _ d 6).trans hd⟩

/-- The data of a throttled cycle's write: STEP plus 1, and EN. -/
def throttleData (r : BitVec 2) : Byte := statusOperand (((r + 1).zeroExtend 7 <<< 2) ||| 0x40)

theorem throttleData_fields (r : BitVec 2) :
    (throttleData r).getLsbD 6 = true ∧ (throttleData r).extractLsb' 2 2 = r + 1 := by
  revert r
  decide

/-- Settles O51: the first command of a crossfade is a masked write, of the mask 0x7C. -/
theorem crossfadeStartsWithOneWrite : Obligations.CrossfadeStartsWithOneWrite :=
  fun _ _ _ _ hrun hpend => issueHost_of_crossfade hrun hpend

/-- Settles O52: each phase's one command, and `Crossfade.resume` of its response. -/
theorem crossfadeRateGating : Obligations.CrossfadeRateGating := by
  refine ⟨fun s a t hrun => ?_, fun s a t r hrun => ?_, fun s a t activity hrun => ?_⟩
  · rw [issueHost_eq_next hrun rfl (exec_str s), newResponse_respond]
    rfl
  · obtain ⟨hen, hstep⟩ := throttleData_fields r
    obtain ⟨hs, hrest⟩ := maskedWrite_STEP_EN (w := s.status) hen
    exact ⟨maskedWrite s.status 0x4C (throttleData r), issueHost_eq_next hrun rfl (exec_stw _ _ s), hs.trans hstep, hrest⟩
  · exact ⟨maskedWrite s.status 0x4C (statusOperand 0x40), issueHost_eq_next hrun rfl (exec_stw _ _ s),
      maskedWrite_STEP_EN (d := statusOperand 0x40) rfl⟩

/-! ### The crossfade's discipline (R93) -/

/-- What the discipline asks of STATUS, by the procedure that the host runs. -/
def FlagsFor (r : Option Procedure) (w : Byte) : Prop :=
  match r with
  | none => True
  | some .awaitDone => True
  | some (.crossfade c) =>
    statusONE w = true ∧
    (c.phase = .poll → statusEN w = !statusDONE w) ∧
    (c.phase.quiet = true → statusEN w = false ∧ statusDONE w = false)

theorem crossfadeDiscipline_iff {s : State} :
    s.CrossfadeDiscipline ↔ (∀ w ∈ s.otherPending, wordLeavesFlags w = true) ∧ FlagsFor s.hostRun s.status := Iff.rfl

theorem flagsFor_crossfade {c : Crossfade} {w : Byte} : FlagsFor (some (.crossfade c)) w ↔
    statusONE w = true ∧ (c.phase = .poll → statusEN w = !statusDONE w) ∧
      (c.phase.quiet = true → statusEN w = false ∧ statusDONE w = false) := Iff.rfl

/-- The discipline speaks of DONE, ONE and EN alone. -/
theorem FlagsFor.congr {r : Option Procedure} {w w' : Byte} (h : FlagsFor r w) (hdone : statusDONE w' = statusDONE w)
    (hone : statusONE w' = statusONE w) (hen : statusEN w' = statusEN w) : FlagsFor r w' := by
  rcases r with _ | c | _
  · trivial
  · rw [flagsFor_crossfade, hdone, hone, hen]
    exact h
  · trivial

/-- R65: the wrap of a crossfade's wait sets DONE and clears EN, ONE being 1; in a quiet phase there is none. -/
theorem FlagsFor.statusAfterWrap {r : Option Procedure} {w : Byte} (h : FlagsFor r w) (hen : statusEN w = true) :
    FlagsFor r (statusAfterWrap w) := by
  rcases r with _ | c | _
  · trivial
  · obtain ⟨hone, hpoll, hquiet⟩ := h
    have hbit := getLsbD_statusAfterWrap w
    rw [statusONE] at hone
    refine ⟨by simp only [statusONE, hbit, hone]; rfl, fun _ => ?_, fun hq => ?_⟩
    · simp only [statusEN, statusDONE, hbit, hone, Bool.and_comm]
      rfl
    · rw [(hquiet hq).1] at hen
      cases hen
  · trivial

/-- A command that leaves DONE, ONE and EN alone, or a TICK, keeps the flags as they are to be. -/
theorem Effect.flagsFor {i : Instr} {s t : State} (e : Effect i s t) (hi : leavesFlags i = true) {r : Option Procedure}
    (h : FlagsFor r s.status) : FlagsFor r t.status := by
  rcases e.status with hs | ⟨_, hen, _, hs⟩ | ⟨d, m, rfl, hs⟩ | ⟨rfl, _⟩ | ⟨rfl, _⟩ | ⟨rfl, _⟩
  · rw [hs]
    exact h
  · rw [hs]
    exact h.statusAfterWrap hen
  · simp only [leavesFlags, Bool.and_eq_true, Bool.not_eq_true'] at hi
    obtain ⟨⟨h4, h5⟩, h6⟩ := hi
    rw [hs]
    have hbit := getLsbD_maskedWrite s.status (statusOperand m) (statusOperand d)
    simp only [getLsbD_statusOperand] at hbit
    exact h.congr ((hbit 4).trans (by rw [h4]; rfl)) ((hbit 5).trans (by rw [h5]; rfl)) ((hbit 6).trans (by rw [h6]; rfl))
  · cases hi
  · cases hi
  · cases hi

theorem flagsFor_of_execWord {w : Word} {s t : State} (hw : wordLeavesFlags w = true) (h : execWord w s = .next t)
    {r : Option Procedure} (hr : FlagsFor r s.status) : FlagsFor r t.status := by
  rcases effect_of_execWord h with ⟨i, hi, e⟩ | ⟨c, _, rfl⟩
  · rw [wordLeavesFlags, hi] at hw
    exact e.flagsFor hw hr
  · exact hr

/-! ### The phases of the crossfade -/

theorem quiet_phaseAfterSegment (i : SegmentIndex) (activity : Bool) : (phaseAfterSegment i activity).quiet = true := by
  unfold phaseAfterSegment
  split_ifs <;> rfl

theorem quiet_phaseAfterStatus (st : Byte) : (phaseAfterStatus st).quiet = true := by
  unfold phaseAfterStatus
  split_ifs <;> rfl

theorem quiet_phaseAfterTarget (i : SegmentIndex) (activity : Bool) (av tv : Byte) :
    (phaseAfterTarget i activity av tv).quiet = true := by
  unfold phaseAfterTarget
  cases segmentStep av tv with
  | some v => rfl
  | none => exact quiet_phaseAfterSegment i activity

/-- In a quiet phase refresh is off and DONE taken, as in the quiet phase after it. -/
theorem FlagsFor.of_quiet {c : Crossfade} {p : Phase} {w : Byte} (h : FlagsFor (some (.crossfade c)) w)
    (hc : c.phase.quiet = true) (hp : p.quiet = true) : FlagsFor (some (.crossfade { c with phase := p })) w := by
  obtain ⟨hone, _, hquiet⟩ := h
  refine ⟨hone, fun hpoll => ?_, fun _ => hquiet hc⟩
  rw [show p = .poll from hpoll] at hp
  cases hp

/-- A DTAKE in the wait: with DONE 1, refresh is off and DONE is taken; with DONE 0 the wait goes on. -/
theorem FlagsFor.of_poll {c : Crossfade} {w : Byte} (h : FlagsFor (some (.crossfade c)) w) (hc : c.phase = .poll) :
    FlagsFor (some (.crossfade { c with phase := phaseAfterPoll (flagByte (statusDONE w)) })) (clearDONE w) := by
  obtain ⟨hone, hpoll, _⟩ := h
  have hen := hpoll hc
  have hdone' : statusDONE (clearDONE w) = false := getLsbD_clearDONE w 4
  have hen' : statusEN (clearDONE w) = statusEN w := getLsbD_clearDONE w 6
  refine ⟨(getLsbD_clearDONE w 5).trans hone, ?_, ?_⟩ <;> rw [hen', hdone', hen] <;> cases statusDONE w
  · exact fun _ => rfl
  · intro hphase; cases hphase
  · intro hphase; cases hphase
  · exact fun _ => ⟨rfl, rfl⟩

/-- A write of STEP and EN in a quiet phase turns refresh on, DONE being 0: the host may wait, or leave. -/
theorem FlagsFor.of_enable {c : Crossfade} {p : Phase} {w d : Byte} (h : FlagsFor (some (.crossfade c)) w)
    (hc : c.phase.quiet = true) (hp : p.quiet = false) (hd : d.getLsbD 6 = true) :
    FlagsFor (some (.crossfade { c with phase := p })) (maskedWrite w 0x4C d) := by
  obtain ⟨hone, _, hquiet⟩ := h
  obtain ⟨_, _, hdone', hone', hen'⟩ := maskedWrite_STEP_EN (w := w) hd
  refine ⟨hone'.trans hone, fun _ => ?_, fun hq => ?_⟩
  · rw [statusEN, statusDONE, hen', hdone']
    exact (congrArg (!·) (hquiet hc).2).symm
  · rw [show p.quiet = true from hq] at hp
    cases hp

/-- A read leaves STATUS; it responds the byte, or faults without a response (R71). -/
theorem exec_segr_inv {b : BufferIndex} {j : SegmentIndex} {s t : State} (h : exec (.segr b j) s = .next t) :
    t.status = s.status ∧
      (newResponse s t = some (readSegment s b j) ∨ newResponse s t = none) := by
  cases Effect.of_exec h with
  | segr => exact ⟨rfl, .inl (newResponse_respond _ s)⟩
  | badBuffer => exact ⟨rfl, .inr (newResponse_raiseFault _ _ s)⟩
  | badValue => exact ⟨rfl, .inr (newResponse_raiseFault _ _ s)⟩

theorem status_of_exec_segw {b : BufferIndex} {j : SegmentIndex} {d : Byte} {s t : State}
    (h : exec (.segw b j d) s = .next t) : t.status = s.status := by
  cases Effect.of_exec h <;> rfl

/-- R93: the crossfade's own commands keep its discipline, phase by phase. -/
theorem FlagsFor.resume {c : Crossfade} {i : Instr} {s t : State} (h : FlagsFor (some (.crossfade c)) s.status)
    (hc : c.command = some i) (ht : exec i s = .next t) :
    FlagsFor ((Procedure.crossfade c).resume (newResponse s t)) t.status := by
  obtain ⟨a, b, phase⟩ := c
  cases phase with
  | poll =>
    cases hc
    cases ht
    rw [newResponse_of_append rfl]
    exact h.of_poll rfl
  | readStatus =>
    cases hc
    cases ht
    rw [newResponse_respond]
    exact h.of_quiet rfl (quiet_phaseAfterStatus s.status)
  | throttle step =>
    cases hc
    cases ht
    exact h.of_enable rfl rfl (throttleData_fields step).1
  | readActive j activity =>
    cases hc
    obtain ⟨hst, hresp | hresp⟩ := exec_segr_inv ht <;> rw [hst, hresp]
    · exact h.of_quiet rfl rfl
    · exact h.of_quiet (p := .hung) rfl rfl
  | readTarget j activity av =>
    cases hc
    obtain ⟨hst, hresp | hresp⟩ := exec_segr_inv ht <;> rw [hst, hresp]
    · exact h.of_quiet rfl (quiet_phaseAfterTarget j activity av _)
    · exact h.of_quiet (p := .hung) rfl rfl
  | writeActive j v =>
    cases hc
    rw [status_of_exec_segw ht]
    exact h.of_quiet rfl (quiet_phaseAfterSegment j true)
  | finishPass activity =>
    cases hc
    cases ht
    cases activity <;> exact h.of_enable (d := statusOperand 0x40) rfl rfl rfl
  | leave => trivial
  | hung => cases hc

/-- R87: the crossfade's first write starts the wait with refresh on and DONE 0, in one-cycle mode. -/
theorem flagsFor_crossfadeStart {a b : BufferIndex} {s t : State} (h : exec crossfadeStart s = .next t) :
    FlagsFor (some (.crossfade ⟨a, b, .poll⟩)) t.status := by
  cases h
  have hbit := getLsbD_maskedWrite s.status (statusOperand 0x7C) (statusOperand 0x60)
  exact ⟨hbit 5, fun _ => (hbit 6).trans (congrArg (!·) (hbit 4)).symm, fun hq => by cases hq⟩

theorem flagsFor_awaitDone (r : Option Byte) (w : Byte) : FlagsFor (Procedure.awaitDone.resume r) w := by
  rw [Procedure.resume]
  split_ifs <;> trivial

/-- Settles O53: whoever issues, the flags are as they are to be for where the host then stands. -/
theorem stepKeepsTheCrossfadeDiscipline : Obligations.StepKeepsTheCrossfadeDiscipline := by
  intro s t hs h
  rw [crossfadeDiscipline_iff] at hs ⊢
  obtain ⟨hwords, hflags⟩ := hs
  cases Issued.of_stepWith h with
  | tick n hpos hv => exact ⟨hwords, (Effect.of_exec hv).flagsFor rfl hflags⟩
  | @other w rest v n hother hv =>
    rw [hother] at hwords
    exact ⟨fun w' hw' => hwords w' (List.mem_cons_of_mem _ hw'),
      flagsFor_of_execWord (hwords w List.mem_cons_self) hv hflags⟩
  | @procedure p i v n hrun hc hv =>
    refine ⟨hwords, ?_⟩
    rw [hrun] at hflags
    cases p with
    | awaitDone => exact flagsFor_awaitDone _ _
    | crossfade c => exact hflags.resume hc hv
  | word n hrun hpend hv => exact ⟨hwords, trivial⟩
  | @crossfade a b rest v n hrun hpend hv => exact ⟨hwords, flagsFor_crossfadeStart (t := v) hv⟩
  | awaitDone n hrun hpend hv => exact ⟨hwords, flagsFor_awaitDone _ _⟩

/-- Settles O54: in a quiet phase refresh is off, and TICK does nothing. -/
theorem noTickRacesAStepPass : Obligations.NoTickRacesAStepPass := by
  intro s c hs hrun hq
  obtain ⟨_, hflags⟩ := crossfadeDiscipline_iff.1 hs
  rw [hrun] at hflags
  obtain ⟨_, _, hquiet⟩ := hflags
  rw [issueTick_eq]
  exact execTick_disabled (hquiet hq).1

end Sys2Proof.Proofs
end

/-! ## Proofs: waits that never end (70_reset_and_hazards.md R126, 60_exceptions.md R102, 45_host_procedures.md R94) -/
section
namespace Sys2Proof.Proofs
open Sys2Proof.Machine

/-- What every step keeps, every run keeps. -/
theorem runWith_keeps {pick : Nat → Agent} {P : State → Prop} (hstep : ∀ s t, P s → stepWith pick s = .next t → P t)
    {k : Nat} {s u : State} (hs : P s) (h : runWith pick k s = .next u) : P u := by
  induction k generalizing s with
  | zero => cases h; exact hs
  | succ k ih =>
    obtain ⟨t, ht, hr⟩ := runWith_succ_inv h
    exact ih (hstep s t hs ht) hr

/-! ### A hung host (R102) -/

theorem command_of_hung {c : Crossfade} (hc : c.phase = .hung) : (Procedure.crossfade c).command = none := by
  rw [Procedure.command, Crossfade.command, hc]

theorem stepWith_keeps_hung {pick : Nat → Agent} {c : Crossfade} (hc : c.phase = .hung) (s t : State)
    (hrun : s.hostRun = some (.crossfade c)) (h : stepWith pick s = .next t) : t.hostRun = some (.crossfade c) := by
  cases Issued.of_stepWith h with
  | tick => exact hrun
  | other => exact hrun
  | procedure n hp hcmd =>
    rw [Option.some.inj (hp.symm.trans hrun), command_of_hung hc] at hcmd
    cases hcmd
  | word _ hn => cases hrun.symm.trans hn
  | crossfade _ hn => cases hrun.symm.trans hn
  | awaitDone _ hn => cases hrun.symm.trans hn

/-- Settles O59: a read of an absent buffer gives no response, and a host without a command is never ready. -/
theorem faultingReadHangsTheHost : Obligations.FaultingReadHangsTheHost := by
  refine ⟨fun s a t i activity hrun habs => ?_, fun s a t i activity av hrun habs => ?_,
    fun pick k s u c hrun hc h => ?_, fun s c hrun hc ht ho => ?_⟩
  · rw [issueHost_eq_next hrun rfl (exec_segr_of_absent habs i), newResponse_raiseFault]
    rfl
  · rw [issueHost_eq_next hrun rfl (exec_segr_of_absent habs i), newResponse_raiseFault]
    rfl
  · rw [hrun]
    exact runWith_keeps (P := fun x => x.hostRun = some (.crossfade c)) (stepWith_keeps_hung hc) hrun h
  · rcases arbitrate_cases Config.arbiter s with ⟨harb, _⟩ | ⟨a, _, _, ha, _⟩
    · rw [step, stepWith, harb]
    · cases a with
      | tickAgent => rw [agentReady_tickAgent_eq_false ht] at ha; cases ha
      | otherHost => rw [agentReady_otherHost_eq_false ho] at ha; cases ha
      | host =>
        rw [agentReady, hostReady, hrun] at ha
        simp only [command_of_hung hc] at ha
        cases ha

/-! ### A wait with refresh off and DONE 0 (R126) -/

section Wait
variable {p : Procedure}

theorem command_of_waits (hp : p.waits = true) : p.command = some .dtake := by
  cases p with
  | awaitDone => rfl
  | crossfade c =>
    have hc : c.phase = .poll := beq_iff_eq.1 hp
    rw [Procedure.command, Crossfade.command, hc]

/-- A DTAKE that responds 0x00 leaves the host in its wait. -/
theorem resume_of_waits (hp : p.waits = true) : p.resume (some 0) = some p := by
  cases p with
  | awaitDone => rfl
  | crossfade c =>
    obtain ⟨a, b, phase⟩ := c
    obtain rfl : phase = .poll := beq_iff_eq.1 hp
    rfl

/-- What a step of a waiting host's machine did: the tick agent or another part of the host left the wait alone, or
the host issued its DTAKE. -/
theorem hostRun_of_stepWith_of_waits {pick : Nat → Agent} {s t : State} (hrun : s.hostRun = some p) (hp : p.waits = true)
    (h : stepWith pick s = .next t) :
    t.hostRun = some p ∨ (s.status.getLsbD 4 = true ∧ t.responses = s.responses ++ [0x01]) := by
  cases Issued.of_stepWith h with
  | tick => exact .inl hrun
  | other => exact .inl hrun
  | @procedure p' i v n hp' hcmd hv =>
    obtain rfl : p' = p := Option.some.inj (hp'.symm.trans hrun)
    cases (command_of_waits hp).symm.trans hcmd
    cases hv
    cases hdone : s.status.getLsbD 4 with
    | true => exact .inr ⟨rfl, by simp [statusDONE, hdone, flagByte, -BitVec.getLsbD_eq_getElem]⟩
    | false =>
      refine .inl ?_
      rw [State.withAgents_hostRun, newResponse_of_append rfl, statusDONE, hdone]
      exact resume_of_waits hp
  | word _ hn => cases hrun.symm.trans hn
  | crossfade _ hn => cases hrun.symm.trans hn
  | awaitDone _ hn => cases hrun.symm.trans hn

/-- A host that waits with refresh off and DONE 0, while no word of another part of the host sets EN or DONE. -/
structure Stalled (p : Procedure) (s : State) : Prop where
  run : s.hostRun = some p
  waits : p.waits = true
  en : s.status.getLsbD 6 = false
  done : s.status.getLsbD 4 = false
  words : ∀ w ∈ s.otherPending, wordSetsFlag w = false

/-- With refresh off, a word that sets neither EN nor DONE leaves both 0. -/
theorem flags_of_execWord {w : Word} {s t : State} (hw : wordSetsFlag w = false) (hen : s.status.getLsbD 6 = false)
    (hdone : s.status.getLsbD 4 = false) (h : execWord w s = .next t) :
    t.status.getLsbD 6 = false ∧ t.status.getLsbD 4 = false := by
  rcases effect_of_execWord h with ⟨i, hi, e⟩ | ⟨c, _, rfl⟩
  · rw [wordSetsFlag, hi] at hw
    constructor
    · by_contra hset
      obtain ⟨d, m, rfl, hm, hd⟩ := e.setsEN hen (Bool.not_eq_false _ ▸ hset)
      simp [hm, hd, -BitVec.getLsbD_eq_getElem] at hw
    · by_contra hset
      rcases e.setsDONE hdone (Bool.not_eq_false _ ▸ hset) with ⟨_, hon, _⟩ | ⟨d, m, rfl, hm, hd⟩
      · rw [hen] at hon
        cases hon
      · simp [hm, hd, -BitVec.getLsbD_eq_getElem] at hw
  · exact ⟨hen, hdone⟩

theorem clearDONE_of_done_false {w : Byte} (h : w.getLsbD 4 = false) : clearDONE w = w := by
  refine BitVec.eq_of_getLsbD_eq fun j _ => ?_
  rw [getLsbD_clearDONE]
  by_cases hj : j = 4
  · rw [hj, h, Bool.and_false]
  · simp [hj]

/-- What a step keeps of a stalled wait: the stall itself, and, with no other part of the host issuing, what that part
could change. -/
theorem Stalled.stepWith {pick : Nat → Agent} {s t : State} (hs : Stalled p s) (h : stepWith pick s = .next t) :
    Stalled p t ∧ (s.otherPending = [] →
      t.otherPending = [] ∧ t.status = s.status ∧ t.frames = s.frames ∧ t.seg = s.seg) := by
  obtain ⟨hrun, hwaits, hen, hdone, hwords⟩ := hs
  cases Issued.of_stepWith h with
  | tick n hpos hv =>
    cases (exec_tick_of_EN_false hen).symm.trans hv
    exact ⟨⟨hrun, hwaits, hen, hdone, hwords⟩, fun ho => ⟨ho, rfl, rfl, rfl⟩⟩
  | @other w rest v n hother hv =>
    rw [hother] at hwords
    obtain ⟨hen', hdone'⟩ := flags_of_execWord (hwords w List.mem_cons_self) hen hdone hv
    exact ⟨⟨hrun, hwaits, hen', hdone', fun w' hw' => hwords w' (List.mem_cons_of_mem _ hw')⟩,
      fun ho => by rw [hother] at ho; cases ho⟩
  | @procedure p' i v n hp' hcmd hv =>
    obtain rfl : p' = p := Option.some.inj (hp'.symm.trans hrun)
    cases (command_of_waits hwaits).symm.trans hcmd
    cases hv
    have hst := clearDONE_of_done_false hdone
    have hresume : p'.resume (newResponse s (respond (flagByte (statusDONE s.status))
        { s with status := clearDONE s.status })) = some p' := by
      rw [newResponse_of_append rfl, statusDONE, hdone]
      exact resume_of_waits hwaits
    exact ⟨⟨hresume, hwaits, (congrArg (·.getLsbD 6) hst).trans hen, (congrArg (·.getLsbD 4) hst).trans hdone, hwords⟩,
      fun ho => ⟨ho, hst, rfl, rfl⟩⟩
  | word _ hn => cases hrun.symm.trans hn
  | crossfade _ hn => cases hrun.symm.trans hn
  | awaitDone _ hn => cases hrun.symm.trans hn

/-- R126: the stall is for ever. -/
theorem Stalled.runWith {pick : Nat → Agent} {k : Nat} {s u : State} (hs : Stalled p s) (h : runWith pick k s = .next u) :
    Stalled p u ∧ (s.otherPending = [] →
      u.otherPending = [] ∧ u.status = s.status ∧ u.frames = s.frames ∧ u.seg = s.seg) := by
  refine runWith_keeps (P := fun x => Stalled p x ∧ (s.otherPending = [] →
    x.otherPending = [] ∧ x.status = s.status ∧ x.frames = s.frames ∧ x.seg = s.seg)) ?_
    ⟨hs, fun ho => ⟨ho, rfl, rfl, rfl⟩⟩ h
  rintro x y ⟨hx, hsame⟩ hstep
  obtain ⟨hy, hkeep⟩ := hx.stepWith hstep
  refine ⟨hy, fun ho => ?_⟩
  obtain ⟨hother, hst, hfr, hseg⟩ := hsame ho
  obtain ⟨hother', hst', hfr', hseg'⟩ := hkeep hother
  exact ⟨hother', hst'.trans hst, hfr'.trans hfr, hseg'.trans hseg⟩

end Wait

/-- Settles O58: a stalled wait stays so in every run, and only a taken DONE ends a wait. -/
theorem waitWithRefreshOffNeverEnds : Obligations.WaitWithRefreshOffNeverEnds := by
  refine ⟨fun pick k s u p hrun hp hen hdone hwords h => ?_,
    fun s t p hrun hp h => hostRun_of_stepWith_of_waits hrun hp h⟩
  obtain ⟨⟨hrun', _, hen', hdone', _⟩, hsame⟩ := Stalled.runWith ⟨hrun, hp, hen, hdone, hwords⟩ h
  exact ⟨hrun', hen', hdone', fun ho => (hsame ho).2⟩

/-- R94, R126: DDIS, RST and an STW that clears EN and does not set DONE turn refresh off, and leave DONE 0. -/
theorem flags_of_turnedOff {i : Instr} {s t : State} (hdone : s.status.getLsbD 4 = false)
    (hi : i = .ddis ∨ i = .rst ∨ ∃ d m : BitVec 7, i = .stw d m ∧ m.getLsbD 6 = true ∧ d.getLsbD 6 = false ∧
      (m.getLsbD 4 && d.getLsbD 4) = false) (h : exec i s = .next t) :
    t.status.getLsbD 6 = false ∧ t.status.getLsbD 4 = false := by
  obtain rfl | rfl | ⟨d, m, rfl, hm6, hd6, hmd⟩ := hi <;> cases h
  · exact ⟨getLsbD_clearEN s.status 6, (getLsbD_clearEN s.status 4).trans hdone⟩
  · exact ⟨BitVec.getLsbD_zero, BitVec.getLsbD_zero⟩
  · have hbit := getLsbD_maskedWrite s.status (statusOperand m) (statusOperand d)
    simp only [getLsbD_statusOperand] at hbit
    refine ⟨(hbit 6).trans ?_, (hbit 4).trans ?_⟩
    · rw [hm6, hd6]
      rfl
    · rw [hdone]
      cases hm : m.getLsbD 4 with
      | false => rfl
      | true => rwa [hm, Bool.true_and] at hmd

/-- Settles O60: the command leaves the host in a stalled wait. -/
theorem refreshTurnedOffDuringAWaitHangsIt : Obligations.RefreshTurnedOffDuringAWaitHangsIt := by
  intro s p i rest hrun hp hdone hother hwords hi
  have hissue : issueOther s = exec i { s with otherPending := rest } := by
    rw [issueOther_of_word hother, execWord_encode]
  obtain ⟨t, ht⟩ : ∃ t, exec i { s with otherPending := rest } = .next t := by
    obtain rfl | rfl | ⟨d, m, rfl, _⟩ := hi <;> exact ⟨_, rfl⟩
  obtain ⟨hen', hdone'⟩ := flags_of_turnedOff (s := { s with otherPending := rest }) hdone hi ht
  have hagents := (Effect.of_exec ht).agents
  have hrun' : t.hostRun = some p := (congrArg AgentState.hostRun hagents).trans hrun
  have hother' : t.otherPending = rest := congrArg AgentState.otherPending hagents
  refine ⟨t, hissue.trans ht, hrun', hen', fun pick k u h => ?_⟩
  obtain ⟨hu, _⟩ := Stalled.runWith ⟨hrun', hp, hen', hdone', by rw [hother']; exact hwords⟩ h
  exact ⟨hu.run, hu.en⟩

end Sys2Proof.Proofs
end

/-! ## Proofs: the per-segment rule of the crossfade (45_host_procedures.md R88, R90, R91) -/
section
namespace Sys2Proof.Proofs
open Sys2Proof.Machine

/-- The three cases of R88's rule. -/
theorem segmentStep_cases (av tv : Byte) :
    (tv ≠ 0 ∧ av.toNat < tv.toNat ∧ segmentStep av tv = some (av + 1)) ∨
    (tv = 0 ∧ av ≠ 0 ∧ segmentStep av tv = some (av - 1)) ∨
    (segmentStep av tv = none ∧ (tv = 0 → av = 0) ∧ (tv ≠ 0 → tv.toNat ≤ av.toNat)) := by
  unfold segmentStep
  by_cases ht : tv = 0
  · by_cases ha : av = 0
    · exact .inr (.inr ⟨by rw [if_neg fun h => h.1 ht, if_neg fun h => h.2 ha], fun _ => ha, fun h => absurd ht h⟩)
    · exact .inr (.inl ⟨ht, ha, by rw [if_neg fun h => h.1 ht, if_pos ⟨ht, ha⟩]⟩)
  · by_cases hlt : av.toNat < tv.toNat
    · exact .inl ⟨ht, hlt, if_pos ⟨ht, hlt⟩⟩
    · exact .inr (.inr ⟨by rw [if_neg fun h => hlt h.2, if_neg fun h => ht h.1], fun h => absurd h ht,
        fun _ => Nat.le_of_not_lt hlt⟩)

theorem toNat_add_one_of_lt {av tv : Byte} (h : av.toNat < tv.toNat) : (av + 1).toNat = av.toNat + 1 := by
  bv_omega

theorem toNat_sub_one_of_ne {av : Byte} (h : av ≠ 0) : (av - 1).toNat = av.toNat - 1 := by
  bv_omega

theorem toNat_pos_of_ne {av : Byte} (h : av ≠ 0) : 0 < av.toNat := by
  bv_omega

/-- A stepped segment gets another value, and an intensity where both values are intensities. -/
theorem segmentStep_eq_some {av tv v : Byte} (h : segmentStep av tv = some v) :
    v ≠ av ∧ (av.toNat ≤ 9 → tv.toNat ≤ 9 → v.toNat ≤ 9) := by
  rcases segmentStep_cases av tv with ⟨_, hlt, he⟩ | ⟨_, hne, he⟩ | ⟨he, _⟩ <;> rw [he] at h
  · cases h
    have := toNat_add_one_of_lt hlt
    exact ⟨fun hc => by rw [hc] at this; omega, fun _ _ => by omega⟩
  · cases h
    have hsub := toNat_sub_one_of_ne hne
    have hpos := toNat_pos_of_ne hne
    exact ⟨fun hc => by rw [hc] at hsub; omega, fun _ _ => by omega⟩
  · cases h

/-- What a pass makes of a segment's value `av`, for the target value `t`. -/
def stepToward (t av : Byte) : Byte := (segmentStep av t).getD av

theorem stepToward_eq (t av : Byte) : stepToward t av =
    if t ≠ 0 ∧ av.toNat < t.toNat then av + 1 else if t = 0 ∧ av ≠ 0 then av - 1 else av := by
  rw [stepToward, segmentStep]
  split_ifs <;> rfl

theorem stepToward_ne_iff {t av : Byte} : stepToward t av ≠ av ↔ (segmentStep av t).isSome = true := by
  rw [stepToward]
  cases h : segmentStep av t with
  | none => simp
  | some v => simpa using (segmentStep_eq_some h).1

theorem toNat_stepToward (t av : Byte) : (stepToward t av).toNat =
    if t = 0 then av.toNat - 1 else if av.toNat < t.toNat then av.toNat + 1 else av.toNat := by
  rw [stepToward]
  rcases segmentStep_cases av t with ⟨ht, hlt, he⟩ | ⟨ht, hne, he⟩ | ⟨he, h0, hle⟩ <;> rw [he, Option.getD]
  · rw [if_neg ht, if_pos hlt, toNat_add_one_of_lt hlt]
  · rw [if_pos ht, toNat_sub_one_of_ne hne]
  · by_cases ht : t = 0
    · rw [if_pos ht, h0 ht]
      rfl
    · rw [if_neg ht, if_neg (Nat.not_lt.2 (hle ht))]

/-- R91: `n` steps go `n` toward the final value, and no further. -/
theorem toNat_iterate_stepToward (a0 t : Byte) (n : Nat) : ((stepToward t)^[n] a0).toNat =
    if t = 0 then a0.toNat - n else if a0.toNat < t.toNat then min (a0.toNat + n) t.toNat else a0.toNat := by
  induction n with
  | zero => split_ifs <;> simp; omega
  | succ n ih =>
    rw [Function.iterate_succ_apply', toNat_stepToward, ih]
    split_ifs <;> omega

/-! ### The final value -/

/-- R90: a segment is at its final value exactly when the rule does not step it. -/
theorem segmentStep_eq_none_iff {av tv : Byte} : segmentStep av tv = none ↔ crossfadeResult av tv = av := by
  unfold crossfadeResult
  rcases segmentStep_cases av tv with ⟨ht, hlt, he⟩ | ⟨ht, hne, he⟩ | ⟨he, h0, hle⟩ <;> rw [he]
  · rw [if_pos (.inr hlt.le)]
    exact ⟨nofun, fun h => by rw [h] at hlt; omega⟩
  · rw [if_pos (.inl ht), ht]
    exact ⟨nofun, fun h => absurd h.symm hne⟩
  · refine ⟨fun _ => ?_, fun _ => rfl⟩
    by_cases ht : tv = 0
    · rw [if_pos (.inl ht), ht, h0 ht]
    · split_ifs with hc
      · exact BitVec.eq_of_toNat_eq (le_antisymm (hle ht) (hc.resolve_left ht))
      · rfl

theorem segmentStep_self (av : Byte) : segmentStep av av = none :=
  segmentStep_eq_none_iff.2 (if_pos (.inr le_rfl))

theorem crossfadeResult_idem (a0 t : Byte) : crossfadeResult (crossfadeResult a0 t) t = crossfadeResult a0 t := by
  by_cases h : t = 0 ∨ a0.toNat ≤ t.toNat
  · have hr : crossfadeResult a0 t = t := if_pos h
    rw [hr]
    exact if_pos (.inr le_rfl)
  · have hr : crossfadeResult a0 t = a0 := if_neg h
    rw [hr, hr]

/-- R90: a step of the rule does not change where the segment will end. -/
theorem crossfadeResult_of_segmentStep {av tv v : Byte} (h : segmentStep av tv = some v) :
    crossfadeResult v tv = crossfadeResult av tv := by
  unfold crossfadeResult
  rcases segmentStep_cases av tv with ⟨ht, hlt, he⟩ | ⟨ht, hne, he⟩ | ⟨he, _⟩ <;> rw [he] at h <;> cases h
  · have := toNat_add_one_of_lt hlt
    rw [if_pos (.inr (by omega)), if_pos (.inr hlt.le)]
  · rw [if_pos (.inl ht), if_pos (.inl ht)]

theorem toNat_crossfadeResult (a0 t : Byte) : (crossfadeResult a0 t).toNat =
    if t = 0 then 0 else if a0.toNat < t.toNat then t.toNat else a0.toNat := by
  unfold crossfadeResult
  by_cases ht : t = 0
  · rw [if_pos (.inl ht), if_pos ht, ht]
    rfl
  · rw [if_neg ht]
    split_ifs with hc hlt hlt
    · rfl
    · exact le_antisymm (Nat.le_of_not_lt hlt) (hc.resolve_left ht)
    · exact absurd (.inr hlt.le) hc
    · rfl

/-- Settles O56: the value after `n` passes, which from 9 passes on is the final value. -/
theorem ninePassesConverge : Obligations.NinePassesConverge := by
  refine ⟨toNat_iterate_stepToward, fun a0 t n ha ht hn => ⟨BitVec.eq_of_toNat_eq ?_, ?_⟩, fun h => ?_⟩
  · refine (toNat_iterate_stepToward a0 t n).trans ?_
    rw [toNat_crossfadeResult]
    split_ifs <;> omega
  · exact segmentStep_eq_none_iff.2 (crossfadeResult_idem a0 t)
  · have hval := (toNat_iterate_stepToward 0 9 8).symm.trans (congrArg BitVec.toNat h)
    exact absurd hval (by decide)

end Sys2Proof.Proofs
end

/-! ## Proofs: the stepping pass (45_host_procedures.md R88, R93) -/
section
namespace Sys2Proof.Proofs
open Sys2Proof.Machine

/-! ### The host's next command comes -/

/-- Some number of steps, the free choices being `pick`, leads from `s` to `u`. -/
def Reaches (pick : Nat → Agent) (s u : State) : Prop := ∃ k, runWith pick k s = .next u

theorem Reaches.refl (pick : Nat → Agent) (s : State) : Reaches pick s s := ⟨0, rfl⟩

theorem Reaches.cons {pick : Nat → Agent} {s t u : State} (hs : stepWith pick s = .next t) (h : Reaches pick t u) :
    Reaches pick s u := by
  obtain ⟨k, hk⟩ := h
  exact ⟨k + 1, (runWith_succ hs).trans hk⟩

theorem Reaches.trans {pick : Nat → Agent} {s t u : State} (h : Reaches pick s t) (h' : Reaches pick t u) :
    Reaches pick s u := by
  obtain ⟨k, hk⟩ := h
  induction k generalizing s with
  | zero => cases hk; exact h'
  | succ k ih =>
    obtain ⟨x, hx, hr⟩ := runWith_succ_inv hk
    exact (ih hr).cons hx

/-- With refresh off and no other part of the host issuing, a running procedure's command is executed after some
steps, all before it being TICKs that do nothing: there are finitely many. -/
theorem reaches_command_withAgents {pick : Nat → Agent} {s v : State} {p : Procedure} {i : Instr}
    (hc : p.command = some i) (hen : s.status.getLsbD 6 = false) (hv : exec i s = .next v)
    (pend : List HostOp) (ticks draws : Nat) :
    ∃ ticks' draws', Reaches pick (s.withAgents ⟨ticks, pend, some p, [], draws⟩)
      (v.withAgents ⟨ticks', pend, p.resume (newResponse s v), [], draws'⟩) := by
  induction ticks generalizing draws with
  | zero =>
    have hstep : stepWith pick (s.withAgents ⟨0, pend, some p, [], draws⟩) =
        .next (v.withAgents ⟨0, pend, p.resume (newResponse s v), [], draws⟩) := by
      rw [stepWith_of_host pick rfl rfl (hostReady_of_command rfl hc), issueHost_of_command rfl hc, exec_withAgents, hv]
      rfl
    exact ⟨0, draws, (Reaches.refl _ _).cons hstep⟩
  | succ n ih =>
    rcases arbitrate_cases pick (s.withAgents ⟨n + 1, pend, some p, [], draws⟩) with ⟨_, hnone⟩ | ⟨a, d, harb, ha, _⟩
    · have hready := hnone .host
      rw [agentReady, hostReady_of_command rfl hc] at hready
      cases hready
    · have hstep : stepWith pick (s.withAgents ⟨n + 1, pend, some p, [], draws⟩) =
          issueAs a (s.withAgents ⟨n + 1, pend, some p, [], d⟩) := by
        rw [stepWith, harb]
        rfl
      cases a with
      | tickAgent =>
        have htick : issueAs .tickAgent (s.withAgents ⟨n + 1, pend, some p, [], d⟩) =
            .next (s.withAgents ⟨n, pend, some p, [], d⟩) :=
          (issueTick_eq _).trans (execTick_disabled hen)
        obtain ⟨ticks', draws', hr⟩ := ih d
        exact ⟨ticks', draws', hr.cons (hstep.trans htick)⟩
      | host =>
        have hhost : issueAs .host (s.withAgents ⟨n + 1, pend, some p, [], d⟩) =
            .next (v.withAgents ⟨n + 1, pend, p.resume (newResponse s v), [], d⟩) := by
          rw [issueAs, issueHost_of_command rfl hc, exec_withAgents, hv]
          rfl
        exact ⟨n + 1, d, (Reaches.refl _ _).cons (hstep.trans hhost)⟩
      | otherHost => cases ha

theorem reaches_command {s v : State} {p : Procedure} {i : Instr} (pick : Nat → Agent) (hrun : s.hostRun = some p)
    (hc : p.command = some i) (hother : s.otherPending = []) (hen : s.status.getLsbD 6 = false)
    (hv : exec i s = .next v) :
    ∃ g : AgentState, g.hostRun = p.resume (newResponse s v) ∧ g.otherPending = [] ∧ Reaches pick s (v.withAgents g) := by
  obtain ⟨ticks, draws, hr⟩ := reaches_command_withAgents (pick := pick) hc hen hv s.hostPending s.tickPending s.draws
  rw [← hrun, ← hother] at hr
  exact ⟨_, rfl, hother, hr⟩

/-! ### One segment of the pass -/

/-- The block in the middle of a stepping pass from `s`: the segments below `j` are stepped, and nothing else has
changed but the responses. -/
structure Stepping (s : State) (a t : BufferIndex) (j : Nat) (u : State) : Prop where
  seg : ∀ b i, readSegment u b i =
    if b = a ∧ i.toNat < j then stepToward (readSegment s t i) (readSegment s a i) else readSegment s b i
  numBuffers : u.numBuffers = s.numBuffers
  status : u.status = s.status
  latch : u.latch = s.latch
  frames : u.frames = s.frames
  faults : u.faults = s.faults

section Pass
variable {s u : State} {a t : BufferIndex} {j : Nat}

theorem Stepping.withAgents (h : Stepping s a t j u) (g : AgentState) : Stepping s a t j (u.withAgents g) := by
  obtain ⟨hseg, hn, hst, hl, hfr, hfa⟩ := h
  exact ⟨hseg, hn, hst, hl, hfr, hfa⟩

theorem Stepping.afterResponse (h : Stepping s a t j u) (v : Byte) : Stepping s a t j (respond v u) := by
  obtain ⟨hseg, hn, hst, hl, hfr, hfa⟩ := h
  exact ⟨hseg, hn, hst, hl, hfr, hfa⟩

/-- In the pass the host's next command comes, refresh being off as it was at the start. -/
theorem Stepping.reaches_command {v : State} {p : Procedure} {i : Instr} (h : Stepping s a t j u)
    (hen : s.status.getLsbD 6 = false) (pick : Nat → Agent) (hrun : u.hostRun = some p) (hc : p.command = some i)
    (hother : u.otherPending = []) (hv : exec i u = .next v) :
    ∃ g : AgentState, g.hostRun = p.resume (newResponse u v) ∧ g.otherPending = [] ∧ Reaches pick u (v.withAgents g) :=
  Proofs.reaches_command pick hrun hc hother (by rw [h.status, hen]) hv

theorem Stepping.present {b : BufferIndex} (h : Stepping s a t j u) (hb : b.toNat < s.numBuffers) :
    b.toNat < u.numBuffers := by
  rw [h.numBuffers]
  exact hb

/-- Segment `j` at its stepped value, the others as they are: the pass is one segment further. -/
theorem Stepping.succ {w : State} {i : SegmentIndex} (h : Stepping s a t j u) (hi : i.toNat = j)
    (hseg : ∀ b k, readSegment w b k =
      if b = a ∧ k = i then stepToward (readSegment s t i) (readSegment s a i) else readSegment u b k)
    (hn : w.numBuffers = u.numBuffers) (hst : w.status = u.status) (hl : w.latch = u.latch) (hfr : w.frames = u.frames)
    (hfa : w.faults = u.faults) : Stepping s a t (j + 1) w := by
  refine ⟨fun b k => ?_, hn.trans h.numBuffers, hst.trans h.status, hl.trans h.latch, hfr.trans h.frames,
    hfa.trans h.faults⟩
  rw [hseg, h.seg]
  by_cases hk : k = i
  · subst hk
    simp [hi]
  · have hne : k.toNat ≠ j := fun hc => hk (BitVec.eq_of_toNat_eq (hc.trans hi.symm))
    have hlt : k.toNat < j + 1 ↔ k.toNat < j := by omega
    simp [hk, hlt]

/-- R88 for one segment: SEGR, SEGR and, if the rule steps it, SEGW. -/
theorem Stepping.segment {i : SegmentIndex} {activity : Bool} (pick : Nat → Agent) (h : Stepping s a t j u)
    (hi : i.toNat = j) (ha : a.toNat < s.numBuffers) (ht : t.toNat < s.numBuffers) (hen : s.status.getLsbD 6 = false)
    (hbytes : ∀ b k, (readSegment s b k).toNat ≤ 9) (hother : u.otherPending = [])
    (hrun : u.hostRun = some (.crossfade ⟨a, t, .readActive i activity⟩)) :
    ∃ w, Reaches pick u w ∧ Stepping s a t (j + 1) w ∧ w.otherPending = [] ∧
      w.hostRun = some (.crossfade ⟨a, t, phaseAfterSegment i
        (activity || (segmentStep (readSegment s a i) (readSegment s t i)).isSome)⟩) := by
  have hread (b : BufferIndex) : readSegment u b i = readSegment s b i := by rw [h.seg, if_neg (by omega)]
  obtain ⟨g, hrun1, hother1, hreach1⟩ := h.reaches_command hen pick hrun rfl hother
    (exec_segr_of_present (h.present ha) i)
  rw [newResponse_respond] at hrun1
  have h1 := (h.afterResponse (readSegment u a i)).withAgents g
  obtain ⟨g', hrun2, hother2, hreach2⟩ := h1.reaches_command hen pick hrun1 rfl hother1
    (exec_segr_of_present (h1.present ht) i)
  rw [newResponse_respond] at hrun2
  have h2 := (h1.afterResponse (readSegment u t i)).withAgents g'
  have hreach := hreach1.trans hreach2
  have hnext : g'.hostRun =
      some (.crossfade ⟨a, t, phaseAfterTarget i activity (readSegment s a i) (readSegment s t i)⟩) := by
    rw [← hread a, ← hread t]
    exact hrun2
  cases hstep : segmentStep (readSegment s a i) (readSegment s t i) with
  | none =>
    rw [phaseAfterTarget, hstep] at hnext
    refine ⟨_, hreach, h2.succ hi (fun b k => ?_) rfl rfl rfl rfl rfl, hother2, ?_⟩
    · split_ifs with hk
      · obtain ⟨rfl, rfl⟩ := hk
        rw [stepToward, hstep]
        exact hread b
      · rfl
    · rw [Option.isSome_none, Bool.or_false]
      exact hnext
  | some v =>
    rw [phaseAfterTarget, hstep] at hnext
    have hv : v.toNat ≤ 9 := (segmentStep_eq_some hstep).2 (hbytes a i) (hbytes t i)
    obtain ⟨g'', hrun3, hother3, hreach3⟩ := h2.reaches_command hen pick hnext rfl hother2
      (exec_segw_of_legal (h2.present ha) i hv)
    refine ⟨_, hreach.trans hreach3, h2.succ hi (fun b k => ?_) rfl rfl rfl rfl rfl, hother3, ?_⟩
    · rw [readSegment_withAgents, readSegment_writeSegment, stepToward, hstep]
      rfl
    · rw [Option.isSome_some, Bool.or_true]
      exact hrun3

/-! ### The whole pass -/

/-- The pass has had activity before segment `j`. -/
def HadActivity (s : State) (a t : BufferIndex) (j : Nat) : Prop :=
  ∃ i : SegmentIndex, i.toNat < j ∧ (segmentStep (readSegment s a i) (readSegment s t i)).isSome = true

theorem hadActivity_succ {i : SegmentIndex} (hi : i.toNat = j) :
    HadActivity s a t (j + 1) ↔
      HadActivity s a t j ∨ (segmentStep (readSegment s a i) (readSegment s t i)).isSome = true := by
  constructor
  · rintro ⟨k, hk, hstep⟩
    by_cases hki : k = i
    · exact .inr (hki ▸ hstep)
    · have hne : k.toNat ≠ j := fun hc => hki (BitVec.eq_of_toNat_eq (hc.trans hi.symm))
      exact .inl ⟨k, by omega, hstep⟩
  · rintro (⟨k, hk, hstep⟩ | hstep)
    · exact ⟨k, by omega, hstep⟩
    · exact ⟨i, by omega, hstep⟩

/-- The pass comes to segment `j`, with the segments below it stepped. -/
theorem reaches_segment (pick : Nat → Agent) (ha : a.toNat < s.numBuffers) (ht : t.toNat < s.numBuffers)
    (hen : s.status.getLsbD 6 = false) (hbytes : ∀ b k, (readSegment s b k).toNat ≤ 9) (hother : s.otherPending = [])
    (hrun : s.hostRun = some (.crossfade ⟨a, t, .readActive 0 false⟩)) (hj : j < 64) :
    ∃ u activity, Reaches pick s u ∧ Stepping s a t j u ∧ u.otherPending = [] ∧
      u.hostRun = some (.crossfade ⟨a, t, .readActive (BitVec.ofNat 6 j) activity⟩) ∧
      (activity = true ↔ HadActivity s a t j) := by
  induction j with
  | zero =>
    refine ⟨s, false, Reaches.refl _ _, ⟨fun b i => ?_, rfl, rfl, rfl, rfl, rfl⟩, hother, hrun, ?_⟩
    · rw [if_neg fun h => Nat.not_lt_zero _ h.2]
    · exact ⟨nofun, fun ⟨_, h, _⟩ => absurd h (Nat.not_lt_zero _)⟩
  | succ j ih =>
    obtain ⟨u, activity, hreach, hstepping, hother', hrun', hact⟩ := ih (by omega)
    have hi : (BitVec.ofNat 6 j).toNat = j := by
      rw [BitVec.toNat_ofNat]
      exact Nat.mod_eq_of_lt (by omega)
    obtain ⟨w, hreach', hstepping', hotherw, hrunw⟩ := hstepping.segment pick hi ha ht hen hbytes hother' hrun'
    have hlast : BitVec.ofNat 6 j ≠ 63 := fun hc => by
      rw [hc] at hi
      change 63 = j at hi
      omega
    have hsucc : BitVec.ofNat 6 j + 1 = BitVec.ofNat 6 (j + 1) := (BitVec.ofNat_add j 1).symm
    rw [phaseAfterSegment, if_neg hlast, hsucc] at hrunw
    refine ⟨w, _, hreach.trans hreach', hstepping', hotherw, hrunw, ?_⟩
    rw [hadActivity_succ hi, ← hact, Bool.or_eq_true]

end Pass

/-- Settles O55: the pass comes to segment 63, and with it to its end. -/
theorem steppingPassStepsEverySegment : Obligations.SteppingPassStepsEverySegment := by
  intro pick s a t hdisc hbytes hother ha ht hrun
  obtain ⟨_, hflags⟩ := crossfadeDiscipline_iff.1 hdisc
  rw [hrun] at hflags
  obtain ⟨_, _, hquiet⟩ := hflags
  have hen : s.status.getLsbD 6 = false := (hquiet rfl).1
  obtain ⟨u, activity, hreach, hstepping, hother', hrun', hact⟩ :=
    reaches_segment pick ha ht hen hbytes hother hrun (j := 63) (by omega)
  obtain ⟨w, hreach', ⟨hseg, _, hst, hl, hfr, hfa⟩, _, hrunw⟩ :=
    hstepping.segment pick (i := 63) rfl ha ht hen hbytes hother' hrun'
  rw [phaseAfterSegment, if_pos rfl] at hrunw
  obtain ⟨k, hk⟩ := hreach.trans hreach'
  have hall (i : SegmentIndex) : readSegment w a i = stepToward (readSegment s t i) (readSegment s a i) := by
    rw [hseg, if_pos ⟨rfl, i.isLt⟩]
  refine ⟨k, w, _, hk, hrunw, fun i => ?_, fun b i hb => ?_, ?_, hfr, hl, hst, hfa⟩
  · rw [hall, stepToward_eq]
  · rw [hseg, if_neg fun h => hb h.1]
  · rw [Bool.or_eq_true, hact, ← hadActivity_succ (j := 63) (i := 63) rfl]
    refine exists_congr fun i => ?_
    rw [hall, stepToward_ne_iff]
    exact and_iff_right i.isLt

end Sys2Proof.Proofs
end

/-! ## Proofs: what a crossfade leaves (45_host_procedures.md R90, R92) -/
section
namespace Sys2Proof.Proofs
open Sys2Proof.Machine

/-- Equal bits, equal field. -/
theorem extractLsb'_congr {w w' : Byte} {lo n : Nat} (h : ∀ j < n, w.getLsbD (lo + j) = w'.getLsbD (lo + j)) :
    w.extractLsb' lo n = w'.extractLsb' lo n := by
  refine BitVec.eq_of_getLsbD_eq fun j hj => ?_
  rw [BitVec.getLsbD_extractLsb', BitVec.getLsbD_extractLsb', h j hj]

/-! ### The invariant -/

/-- The block at any time of a crossfade of `a` toward `t` that began at `s`: each segment of `a` has still the same
end, and nothing else that the result speaks of has changed. -/
structure Fading (s : State) (a t : BufferIndex) (u : State) : Prop where
  legal : u.Legal
  numBuffers : u.numBuffers = s.numBuffers
  target : ∀ i, readSegment u t i = readSegment s t i
  active : ∀ i, crossfadeResult (readSegment u a i) (readSegment s t i) =
    crossfadeResult (readSegment s a i) (readSegment s t i)
  rest : ∀ b i, b ≠ a → readSegment u b i = readSegment s b i
  rate : u.status.extractLsb' 0 2 = s.status.extractLsb' 0 2
  act : u.act = s.act
  faults : u.faults = s.faults

/-- The rule of R88 does not step the segment any more. -/
def Settled (s : State) (a t : BufferIndex) (u : State) (i : SegmentIndex) : Prop :=
  segmentStep (readSegment u a i) (readSegment s t i) = none

/-- What holds of the block where the crossfade stands: in a pass without activity so far, the segments already seen
are settled. -/
def PhaseInv (s : State) (a t : BufferIndex) (u : State) : Phase → Prop
  | .poll => True
  | .readStatus => True
  | .throttle _ => True
  | .readActive i activity => activity = false → ∀ j : SegmentIndex, j.toNat < i.toNat → Settled s a t u j
  | .readTarget i activity av =>
    av = readSegment u a i ∧ (activity = false → ∀ j : SegmentIndex, j.toNat < i.toNat → Settled s a t u j)
  | .writeActive i v => segmentStep (readSegment u a i) (readSegment s t i) = some v
  | .finishPass activity => activity = false → ∀ j, Settled s a t u j
  | .leave => (∀ j, Settled s a t u j) ∧ u.status.extractLsb' 2 2 = 0
  | .hung => False

/-- The block once the crossfade has returned. -/
structure Returned (s : State) (a t : BufferIndex) (u : State) : Prop where
  settled : ∀ j, Settled s a t u j
  one : u.status.getLsbD 5 = false
  en : u.status.getLsbD 6 = true
  step : u.status.extractLsb' 2 2 = 0

section Crossfade
variable {s u v : State} {a t : BufferIndex}

theorem Settled.congr {i : SegmentIndex} (h : Settled s a t u i) (hseg : v.seg = u.seg) : Settled s a t v i := by
  rw [Settled, readSegment, hseg]
  exact h

/-- The phases speak of SEG and STEP alone. -/
theorem PhaseInv.congr {p : Phase} (h : PhaseInv s a t u p) (hseg : v.seg = u.seg)
    (hstep : v.status.extractLsb' 2 2 = u.status.extractLsb' 2 2) : PhaseInv s a t v p := by
  have hset {j : SegmentIndex} (hj : Settled s a t u j) : Settled s a t v j := hj.congr hseg
  cases p with
  | poll => trivial
  | readStatus => trivial
  | throttle step => trivial
  | readActive i activity => exact fun hno j hj => hset (h hno j hj)
  | readTarget i activity av =>
    obtain ⟨hav, hseen⟩ := h
    exact ⟨by rw [hav, readSegment, readSegment, hseg], fun hno j hj => hset (hseen hno j hj)⟩
  | writeActive i w =>
    rw [PhaseInv, readSegment, hseg]
    exact h
  | finishPass activity => exact fun hno j => hset (h hno j)
  | leave =>
    obtain ⟨hall, hs⟩ := h
    exact ⟨fun j => hset (hall j), hstep.trans hs⟩
  | hung => exact h

/-- A command that leaves SEG, ACT, RATE and FAULTS alone. -/
theorem Fading.keep {i : Instr} (h : Fading s a t u) (hv : exec i u = .next v) (hseg : v.seg = u.seg)
    (hact : v.act = u.act) (hrate : v.status.extractLsb' 0 2 = u.status.extractLsb' 0 2)
    (hfaults : v.faults = u.faults) : Fading s a t v := by
  have e := Effect.of_exec hv
  have hread (b : BufferIndex) (k : SegmentIndex) : readSegment v b k = readSegment u b k := by
    rw [readSegment, readSegment, hseg]
  exact ⟨e.legal h.legal, e.numBuffers.trans h.numBuffers, fun k => (hread t k).trans (h.target k),
    fun k => by rw [hread, h.active], fun b k hb => (hread b k).trans (h.rest b k hb), hrate.trans h.rate,
    hact.trans h.act, hfaults.trans h.faults⟩

theorem Fading.withAgents (h : Fading s a t u) (g : AgentState) : Fading s a t (u.withAgents g) := by
  obtain ⟨hleg, hn, htar, hactive, hrest, hrate, hact, hfa⟩ := h
  exact ⟨hleg.withAgents g, hn, htar, hactive, hrest, hrate, hact, hfa⟩

/-- A stepped value is an intensity. -/
theorem Fading.stepped_le (h : Fading s a t u) {i : SegmentIndex} {w : Byte}
    (hw : segmentStep (readSegment u a i) (readSegment s t i) = some w) : w.toNat ≤ 9 := by
  refine (segmentStep_eq_some hw).2 (segmentBytesAreIntensities u a i h.legal) ?_
  rw [← h.target]
  exact segmentBytesAreIntensities u t i h.legal

/-- R88's SEGW keeps the end of its segment; the buffer is not `t`, for a segment compared with itself is settled. -/
theorem Fading.write (h : Fading s a t u) (ha : a.toNat < s.numBuffers) {i : SegmentIndex} {w : Byte}
    (hw : segmentStep (readSegment u a i) (readSegment s t i) = some w) : Fading s a t (writeSegment u a i w) := by
  have hne : t ≠ a := by
    rintro rfl
    rw [h.target, segmentStep_self] at hw
    cases hw
  have hleg := legal_writeSegment h.legal (b := a) (by rw [h.numBuffers]; exact ha) i (h.stepped_le hw)
  refine ⟨hleg, h.numBuffers, fun k => ?_, fun k => ?_, fun b k hb => ?_, h.rate, h.act, h.faults⟩
  · rw [readSegment_writeSegment, if_neg fun hc => hne hc.1, h.target]
  · rw [readSegment_writeSegment]
    split_ifs with hk
    · obtain ⟨_, rfl⟩ := hk
      rw [crossfadeResult_of_segmentStep hw, h.active]
    · exact h.active k
  · rw [readSegment_writeSegment, if_neg fun hc => hb hc.1, h.rest b k hb]

/-! ### The crossfade's own commands -/

/-- The pass goes on to the next segment, or to its end, with the segments seen settled if it had no activity. -/
theorem phaseInv_afterSegment {i : SegmentIndex} {activity : Bool}
    (h : activity = false → ∀ j : SegmentIndex, j.toNat ≤ i.toNat → Settled s a t u j) :
    PhaseInv s a t u (phaseAfterSegment i activity) := by
  rw [phaseAfterSegment]
  split_ifs with hi
  · intro hno j
    have hj := j.isLt
    exact h hno j (by rw [hi]; exact Nat.le_of_lt_succ hj)
  · intro hno j hj
    exact h hno j (by bv_omega)

theorem phaseInv_afterPoll (r : Byte) : PhaseInv s a t u (phaseAfterPoll r) := by
  rw [phaseAfterPoll]
  split_ifs <;> trivial

theorem phaseInv_afterStatus (st : Byte) : PhaseInv s a t u (phaseAfterStatus st) := by
  rw [phaseAfterStatus]
  split_ifs
  · trivial
  · exact fun _ j hj => absurd hj (Nat.not_lt_zero _)

theorem phaseInv_afterTarget {i : SegmentIndex} {activity : Bool}
    (h : activity = false → ∀ j : SegmentIndex, j.toNat < i.toNat → Settled s a t u j) :
    PhaseInv s a t u (phaseAfterTarget i activity (readSegment u a i) (readSegment s t i)) := by
  rw [phaseAfterTarget]
  cases hstep : segmentStep (readSegment u a i) (readSegment s t i) with
  | some w => exact hstep
  | none =>
    refine phaseInv_afterSegment fun hno j hj => ?_
    by_cases hji : j = i
    · rw [hji]
      exact hstep
    · have hne : j.toNat ≠ i.toNat := fun hc => hji (BitVec.eq_of_toNat_eq hc)
      exact h hno j (by omega)

/-- Each command of the crossfade keeps the invariant, and leads to a phase with its own, or to the return. -/
theorem Fading.resume {p : Phase} {i : Instr} (h : Fading s a t u) (ha : a.toNat < s.numBuffers)
    (ht : t.toNat < s.numBuffers) (hp : PhaseInv s a t u p)
    (hc : (Procedure.crossfade ⟨a, t, p⟩).command = some i) (hv : exec i u = .next v) :
    Fading s a t v ∧
      ((∃ p', (Procedure.crossfade ⟨a, t, p⟩).resume (newResponse u v) = some (.crossfade ⟨a, t, p'⟩) ∧
          PhaseInv s a t v p') ∨
        ((Procedure.crossfade ⟨a, t, p⟩).resume (newResponse u v) = none ∧ Returned s a t v)) := by
  rw [← h.numBuffers] at ha ht
  cases p with
  | poll =>
    cases hc
    refine ⟨?_, .inl ⟨_, ?_, phaseInv_afterPoll (flagByte (statusDONE u.status))⟩⟩ <;> cases hv
    · exact h.keep (exec_dtake u) rfl rfl (extractLsb'_maskedWrite_of_clear (by decide) _ _) rfl
    · rw [newResponse_of_append rfl]
      rfl
  | readStatus =>
    cases hc
    refine ⟨?_, .inl ⟨_, ?_, phaseInv_afterStatus u.status⟩⟩ <;> cases hv
    · exact h.keep (exec_str u) rfl rfl rfl rfl
    · rw [newResponse_respond]
      rfl
  | throttle step =>
    cases hc
    refine ⟨?_, .inl ⟨.poll, rfl, trivial⟩⟩
    cases hv
    exact h.keep (exec_stw _ _ u) rfl rfl (extractLsb'_maskedWrite_of_clear (by decide) _ _) rfl
  | readActive j activity =>
    cases hc
    cases (exec_segr_of_present ha j).symm.trans hv
    rw [newResponse_respond]
    exact ⟨h.keep hv rfl rfl rfl rfl, .inl ⟨_, rfl, rfl, hp⟩⟩
  | readTarget j activity av =>
    cases hc
    cases (exec_segr_of_present ht j).symm.trans hv
    obtain ⟨rfl, hseen⟩ := hp
    rw [newResponse_respond]
    refine ⟨h.keep hv rfl rfl rfl rfl, .inl ⟨_, rfl, ?_⟩⟩
    rw [h.target]
    exact phaseInv_afterTarget hseen
  | writeActive j w =>
    cases hc
    cases (exec_segw_of_legal ha j (h.stepped_le hp)).symm.trans hv
    exact ⟨h.write (h.numBuffers ▸ ha) hp, .inl ⟨_, rfl, phaseInv_afterSegment nofun⟩⟩
  | finishPass activity =>
    cases hc
    cases hv
    obtain ⟨hstep, hrate, _⟩ := maskedWrite_STEP_EN (w := u.status) (d := statusOperand 0x40) rfl
    refine ⟨h.keep (exec_stw _ _ u) rfl rfl hrate rfl, .inl ⟨_, rfl, ?_⟩⟩
    cases activity with
    | true => trivial
    | false => exact ⟨fun j => (hp rfl j).congr rfl, hstep⟩
  | leave =>
    cases hc
    cases hv
    obtain ⟨hall, hstep⟩ := hp
    have hbit := getLsbD_maskedWrite u.status (statusOperand 0x60) (statusOperand 0x40)
    exact ⟨h.keep (exec_stw _ _ u) rfl rfl (extractLsb'_maskedWrite_of_clear (by decide) _ _) rfl,
      .inr ⟨rfl, fun j => (hall j).congr rfl, hbit 5, hbit 6,
        (extractLsb'_maskedWrite_of_clear (by decide) _ _).trans hstep⟩⟩
  | hung => exact hp.elim

/-! ### A run of the crossfade -/

/-- Where the host stands in a run that issues one crossfade: before it, in it, or after its return. -/
inductive Standing (s : State) (a t : BufferIndex) (u : State) : Prop where
  | start (hrun : u.hostRun = none) (hpend : u.hostPending = [.crossfade a t])
  | running (p : Phase) (hrun : u.hostRun = some (.crossfade ⟨a, t, p⟩)) (hpend : u.hostPending = [])
      (hp : PhaseInv s a t u p)
  | returned (hrun : u.hostRun = none) (hpend : u.hostPending = []) (hr : Returned s a t u)

/-- The invariant of such a run, no other part of the host issuing. -/
structure CrossfadeInv (s : State) (a t : BufferIndex) (u : State) : Prop where
  fading : Fading s a t u
  standing : Standing s a t u
  other : u.otherPending = []

/-- A TICK keeps the invariant: it leaves SEG, RATE, STEP and ONE, and, with ONE 0, EN. -/
theorem CrossfadeInv.tick (h : CrossfadeInv s a t u) (hv : exec .tick u = .next v) (n d : Nat) :
    CrossfadeInv s a t (v.withAgents ⟨n, u.hostPending, u.hostRun, u.otherPending, d⟩) := by
  obtain ⟨hfading, hstanding, hother⟩ := h
  obtain ⟨hseg, hact, hbits, _, hfaults, _⟩ := tickLeavesAloneWhatItMust.1 u v hv
  have hstep : v.status.extractLsb' 2 2 = u.status.extractLsb' 2 2 :=
    extractLsb'_congr fun j hj => hbits _ (by omega) (by omega)
  have hrate : v.status.extractLsb' 0 2 = u.status.extractLsb' 0 2 :=
    extractLsb'_congr fun j hj => hbits _ (by omega) (by omega)
  refine ⟨(hfading.keep hv hseg hact hrate hfaults).withAgents _, ?_, hother⟩
  cases hstanding with
  | start hrun hpend => exact .start hrun hpend
  | running p hrun hpend hp => exact .running p hrun hpend (hp.congr hseg hstep)
  | returned hrun hpend hr =>
    obtain ⟨hall, hone, hen, hs⟩ := hr
    refine .returned hrun hpend ⟨fun j => (hall j).congr hseg, (hbits 5 (by decide) (by decide)).trans hone, ?_,
      hstep.trans hs⟩
    by_contra hoff
    rcases (Effect.of_exec hv).clearsEN hen (Bool.not_eq_true _ ▸ hoff) with ⟨_, _, h5⟩ | ⟨d, m, hc⟩ | hc | hc
    · rw [hone] at h5
      cases h5
    · cases hc
    · cases hc
    · cases hc

theorem CrossfadeInv.stepWith {pick : Nat → Agent} (ha : a.toNat < s.numBuffers) (ht : t.toNat < s.numBuffers)
    (u w : State) (h : CrossfadeInv s a t u) (hw : stepWith pick u = .next w) : CrossfadeInv s a t w := by
  cases Issued.of_stepWith hw with
  | tick n hpos hv => exact h.tick hv _ n
  | other n hother hv => cases h.other.symm.trans hother
  | @procedure p i v n hrun hc hv =>
    obtain ⟨hfading, hstanding, hother⟩ := h
    cases hstanding with
    | start hrun' => cases hrun'.symm.trans hrun
    | returned hrun' => cases hrun'.symm.trans hrun
    | running ph hrun' hpend hp =>
      obtain rfl := Option.some.inj (hrun'.symm.trans hrun)
      obtain ⟨hv', ⟨ph', hresume, hp'⟩ | ⟨hresume, hr⟩⟩ := hfading.resume ha ht hp hc hv <;> rw [hresume]
      · exact ⟨hv'.withAgents _, .running ph' rfl hpend (hp'.congr rfl rfl), hother⟩
      · obtain ⟨hall, hone, hen, hs⟩ := hr
        exact ⟨hv'.withAgents _, .returned rfl hpend ⟨hall, hone, hen, hs⟩, hother⟩
  | word n hrun hpend hv =>
    cases h.standing with
    | start _ hpend' => cases hpend'.symm.trans hpend
    | running _ hrun' => cases hrun'.symm.trans hrun
    | returned _ hpend' => cases hpend'.symm.trans hpend
  | crossfade n hrun hpend hv =>
    cases h.standing with
    | start _ hpend' =>
      cases hpend'.symm.trans hpend
      cases hv
      refine ⟨(h.fading.keep (exec_stw _ _ u) rfl rfl ?_ rfl).withAgents _, .running .poll rfl rfl trivial, h.other⟩
      exact extractLsb'_maskedWrite_of_clear (by decide) _ _
    | running _ hrun' => cases hrun'.symm.trans hrun
    | returned _ hpend' => cases hpend'.symm.trans hpend
  | awaitDone n hrun hpend hv =>
    cases h.standing with
    | start _ hpend' => cases hpend'.symm.trans hpend
    | running _ hrun' => cases hrun'.symm.trans hrun
    | returned _ hpend' => cases hpend'.symm.trans hpend

end Crossfade

/-- Settles O57: after the return every segment is settled, that is at its end, which no step of the run has changed. -/
theorem crossfadeReturnsItsResult : Obligations.CrossfadeReturnsItsResult := by
  intro pick k s u a t hleg hrun hpend hother ha ht hk hrun' hpend'
  have hstart : CrossfadeInv s a t s :=
    ⟨⟨hleg, rfl, fun _ => rfl, fun _ => rfl, fun _ _ _ => rfl, rfl, rfl, rfl⟩, .start hrun hpend, hother⟩
  obtain ⟨hfading, hstanding, _⟩ := runWith_keeps (CrossfadeInv.stepWith ha ht) hstart hk
  cases hstanding with
  | start _ hp => cases hpend'.symm.trans hp
  | running _ hr => cases hrun'.symm.trans hr
  | returned _ _ hr =>
    obtain ⟨hall, hone, hen, hstep⟩ := hr
    refine ⟨fun i => ?_, hfading.rest, hone, hen, hstep, hfading.rate, hfading.act, hfading.faults⟩
    exact (segmentStep_eq_none_iff.1 (hall i)).symm.trans (hfading.active i)

end Sys2Proof.Proofs
end
